-- ==== Sys2Proof/Word.lean ====
section
/-! DEFINITION. The words the chorus core's interface and memories are made of: a 64-bit command or
response word (rule R80), a 32-bit operand (rule R82), a signed 16-bit audio sample (rules R10, R13).
`REAL` quantities are exact rationals, Lean's `Rat` (rule R14). -/

namespace Sys2Proof

/-- A command word `CW` or a response word `RW` (rule R80). -/
abbrev Word64 := BitVec 64

/-- The operand field `OPD` of a command (rule R82). -/
abbrev Operand := BitVec 32

/-- An audio sample: the pattern of a signed two's-complement 16-bit integer (rules R10, R13). -/
abbrev Sample := BitVec 16

/-- One byte of a window viewed as bytes (rule R65). -/
abbrev Byte := BitVec 8

end Sys2Proof
end

