-- ==== Sys2Proof/Config.lean ====
section
/-! DEFINITION. The configuration record `CFG` of rule R8: everything that is fixed when a device is
built. The three function-valued fields of the record (`NUM.rnd`, `BEAT`, `V1_MAX_DELAY`) are plain
data here: each has the forms the spec names, which can be evaluated, and a form `free k`, whose values
are an opaque constant of this file (log entries 3, 4 and 5), so that a claim about it holds for every
function. -/

namespace Sys2Proof

/-- Which engine a device is built with (rule R3). -/
inductive Variant
  | v1
  | v2
deriving DecidableEq, Repr

/-- `NUM.rnd`, the rounding applied after each REAL operation (rules R8, R14, R15). -/
inductive Rounding
  /-- The identity: the reference configuration, exact rational arithmetic. -/
  | exact
  /-- A rounding the spec leaves open: `Config.freeRound k`. -/
  | free (k : Nat)
deriving DecidableEq, Repr

/-- `BEAT`, the secondary term of the composite LFO (rules R8, R129). The source gives no formula. -/
inductive Beat
  /-- A constant function of the phase (the test functions `BEAT(p) = 0` and `BEAT(p) = 1/4`). -/
  | const (value : Rat)
  /-- `amp * TRI(fractional part of mult * p)`, the shape of test configuration T2c. -/
  | triangle (amp mult : Rat)
  /-- A function the spec leaves open: `Config.freeBeat k`. -/
  | free (k : Nat)
deriving DecidableEq, Repr

/-- `V1_MAX_DELAY`, the upper clamp of the variant-1 delay band as a function of the capacity
(rule R8). -/
inductive MaxDelay
  /-- `CAP - margin`; the reference value is `CAP - 2` (rule R8, decision D11). -/
  | capMinus (margin : Rat)
  /-- A function the spec leaves open: `Config.freeMaxDelay k`. -/
  | free (k : Nat)
deriving DecidableEq, Repr

/-- One row of the per-mode tables `MODE_RATE`, `MODE_MIN_S`, `MODE_MAX_S`, `MODE_DEPTH`
(rules R8, R189). -/
structure ModeRow where
  rate  : Rat
  minS  : Rat
  maxS  : Rat
  depth : Rat
deriving DecidableEq, Repr

/-- The configuration record `CFG` (rule R8), field for field. `V1_MIN_LEN`, `V2_MIN_LEN` and the
variant-1 rate clamp, which rule R8 fixes, are the constants below. -/
structure Config where
  /-- `VARIANT`. -/
  variant            : Variant
  /-- `FS_HZ`. -/
  fsHz               : Rat
  /-- `BLOCK_N`. -/
  blockN             : Nat
  /-- `V2_RATE_MIN`. -/
  v2RateMin          : Rat
  /-- `V2_RATE_MAX`. -/
  v2RateMax          : Rat
  /-- `V1_BASE_DELAY`. -/
  v1BaseDelay        : Nat
  /-- `V1_MOD_RANGE`. -/
  v1ModRange         : Rat
  /-- `V1_MIN_DELAY`. -/
  v1MinDelay         : Rat
  /-- `V1_MAX_DELAY`. -/
  v1MaxDelay         : MaxDelay
  /-- The mode-1 ("mode A") row of the tables. -/
  mode1              : ModeRow
  /-- The mode-2 ("mode B") row of the tables. -/
  mode2              : ModeRow
  /-- The mode-3 ("combined") row of the tables. -/
  mode3              : ModeRow
  /-- `V2_RIGHT_OFFSET`. -/
  v2RightOffset      : Rat
  /-- `A_PRE`. -/
  aPre               : Rat
  /-- `A_POST`. -/
  aPost              : Rat
  /-- `SAT_T`. -/
  satT               : Rat
  /-- `SAT_K`. -/
  satK               : Rat
  /-- `BEAT`. -/
  beat               : Beat
  /-- `BYPASS_TOUCHES_LATCH`. -/
  bypassTouchesLatch : Bool
  /-- `NUM.rnd`. -/
  rounding           : Rounding
deriving DecidableEq, Repr

/-- FREE VALUE (log entry 3): the value of a rounding `NUM.rnd` that the spec leaves open. -/
opaque Config.freeRound : Nat → Rat → Rat

/-- FREE VALUE (log entry 4): the value of a secondary LFO term `BEAT` that the spec leaves open. -/
opaque Config.freeBeat : Nat → Rat → Rat

/-- FREE VALUE (log entry 5): the value at a capacity of an upper delay clamp `V1_MAX_DELAY` that the
spec leaves open. -/
opaque Config.freeMaxDelay : Nat → Nat → Rat

/-- `V1_MIN_LEN` (rules R8, R151). -/
def v1MinLen : Nat := 10

/-- `V2_MIN_LEN` (rules R8, R171). -/
def v2MinLen : Nat := 32

/-- `V1_RATE_MIN` (rules R8, R162). -/
def v1RateMin : Rat := 1 / 10

/-- `V1_RATE_MAX` (rules R8, R162). -/
def v1RateMax : Rat := 5

/-- The configuration `State.reset` is built with: the reference values of rule R8's table. They are
the spec's suggestions and carry no authority (log entry 1); `BEAT`, which has no reference value, is
left free. -/
def Config.reference : Config where
  variant := .v1
  fsHz := 44100
  blockN := 128
  v2RateMin := 1 / 10
  v2RateMax := 5
  v1BaseDelay := 132
  v1ModRange := 64
  v1MinDelay := 1
  v1MaxDelay := .capMinus 2
  mode1 := { rate := 1 / 2, minS := 8 / 1000, maxS := 24 / 1000, depth := 1 }
  mode2 := { rate := 4 / 5, minS := 10 / 1000, maxS := 28 / 1000, depth := 1 }
  mode3 := { rate := 1, minS := 8 / 1000, maxS := 28 / 1000, depth := 3 / 4 }
  v2RightOffset := 2
  aPre := 923 / 1000
  aPost := 631 / 1000
  satT := 16000
  satK := 3 / 10
  beat := .free 0
  bypassTouchesLatch := false
  rounding := .exact

end Sys2Proof
end

