-- ==== Sys2Proof/Syntax.lean ====
section
/-! DEFINITION. The commands of the chorus core: one constructor per row of `spec/opcode_table.json`
(rules R81, R83, R93). A mnemonic that both variants have is two rows, hence two constructors. Fields
are the operand fields of rules R86 to R92 with their must-be-zero bits left out. -/

namespace Sys2Proof

/-- The instance slot a command addresses, its `CH` field (rules R23, R84). -/
inductive Slot
  | s0
  | s1
deriving DecidableEq, Repr

/-- A command. -/
inductive Instr
  /-- `INIT1 len, p0, p1` (rules R88, R151, R152). -/
  | init1 (len : BitVec 24) (p0 p1 : Bool)
  /-- `INIT2 ch, len, p0, right` (rules R88, R171, R172). -/
  | init2 (ch : Slot) (len : BitVec 24) (p0 right : Bool)
  /-- `PROC1 in` (rules R89, R154). -/
  | proc1 (inValid : Bool)
  /-- `PROC2 ch, in` (rules R89, R176). -/
  | proc2 (ch : Slot) (inValid : Bool)
  /-- `SETRATE` of variant 1 (rule R162). -/
  | setrate1 (q : Operand)
  /-- `SETRATE` of variant 2 (rule R184). -/
  | setrate2 (ch : Slot) (q : Operand)
  /-- `SETDEPTH` of variant 1 (rule R163). -/
  | setdepth1 (q : Operand)
  /-- `SETDEPTH` of variant 2 (rule R185). -/
  | setdepth2 (ch : Slot) (q : Operand)
  /-- `SETMIX` (rule R164). -/
  | setmix (q : Operand)
  /-- `SETMODE` (rule R186). -/
  | setmode (ch : Slot) (m : Operand)
  /-- `SETBYP` of variant 1 (rule R165). -/
  | setbyp1 (b : Operand)
  /-- `SETBYP` of variant 2 (rule R187). -/
  | setbyp2 (ch : Slot) (b : Operand)
  /-- `GETLEN` of variant 1 (rule R166). -/
  | getlen1
  /-- `GETLEN` of variant 2 (rule R188). -/
  | getlen2 (ch : Slot)
  /-- `SYNCPH phase` (rule R203). -/
  | syncph (p : Operand)
  /-- `GETPH` (rule R204). -/
  | getph
deriving DecidableEq, Repr

end Sys2Proof
end

