-- ==== Sys2Proof/WellFormed.lean ====
section
/-! DEFINITION. Well-formedness of a command: it is a command of the device's variant (rules R83, R93,
R94). Every value of every field is encodable (rules R86 to R91, R95), so there is no other check. -/

namespace Sys2Proof

/-- The variant whose row of rule R93 a command comes from. -/
def Instr.variant : Instr → Variant
  | .init1 _ _ _ => .v1
  | .init2 _ _ _ _ => .v2
  | .proc1 _ => .v1
  | .proc2 _ _ => .v2
  | .setrate1 _ => .v1
  | .setrate2 _ _ => .v2
  | .setdepth1 _ => .v1
  | .setdepth2 _ _ => .v2
  | .setmix _ => .v1
  | .setmode _ _ => .v2
  | .setbyp1 _ => .v1
  | .setbyp2 _ _ => .v2
  | .getlen1 => .v1
  | .getlen2 _ => .v2
  | .syncph _ => .v2
  | .getph => .v2

/-- The command is legal on a device built as variant `v`. -/
def Instr.wellFormed (v : Variant) (i : Instr) : Bool := i.variant == v

end Sys2Proof
end

