-- ==== Sys2Proof/Decode.lean ====
section
/-! DEFINITION. The decoder of rule R100 over the match and mask rows of rule R93, and after it the
encoder (rule R100: `CW = OPC, CH, 27 zero bits, OPD`). Both are total. -/

namespace Sys2Proof

/-! ## Fields of a command word (rule R82) -/

/-- The slot a `CH` bit names (rule R84). -/
def slotOfBit (ch : Bool) : Slot := if ch then .s1 else .s0

/-- The `CH` bit of a slot. -/
def bitOfSlot : Slot → Bool
  | .s0 => false
  | .s1 => true

/-- `OPC`, bits 63:60. -/
def opcOf (w : Word64) : BitVec 4 := w.extractLsb' 60 4

/-- `CH`, bit 59. -/
def chOf (w : Word64) : Slot := slotOfBit (w.getLsbD 59)

/-- `RSV`, bits 58:32. -/
def rsvOf (w : Word64) : BitVec 27 := w.extractLsb' 32 27

/-- `OPD`, bits 31:0. -/
def opdOf (w : Word64) : Operand := w.extractLsb' 0 32

/-- `LEN` of formats N1 and N2, operand bits 23:0 (rule R88). -/
def lenOf (w : Word64) : BitVec 24 := w.extractLsb' 0 24

/-! ## The rows of rule R93 -/

/-- One row of rule R93: a word of a device of variant `variant` is this row's command when
`word &&& mask = pattern`, and `build` reads its operand fields. -/
structure Row where
  variant : Variant
  mask    : Word64
  pattern : Word64
  build   : Word64 → Instr

/-- The table of rule R93, in table order. -/
def rows : List Row := [
  ⟨.v1, 0xFFFFFFFFFC000000#64, 0x1000000000000000#64, fun w => .init1 (lenOf w) (w.getLsbD 24) (w.getLsbD 25)⟩,
  ⟨.v2, 0xF7FFFFFFFA000000#64, 0x1000000000000000#64, fun w => .init2 (chOf w) (lenOf w) (w.getLsbD 24) (w.getLsbD 26)⟩,
  ⟨.v1, 0xFFFFFFFFFFFFFFFE#64, 0x2000000000000000#64, fun w => .proc1 (w.getLsbD 0)⟩,
  ⟨.v2, 0xF7FFFFFFFFFFFFFE#64, 0x2000000000000000#64, fun w => .proc2 (chOf w) (w.getLsbD 0)⟩,
  ⟨.v1, 0xFFFFFFFF00000000#64, 0x3000000000000000#64, fun w => .setrate1 (opdOf w)⟩,
  ⟨.v2, 0xF7FFFFFF00000000#64, 0x3000000000000000#64, fun w => .setrate2 (chOf w) (opdOf w)⟩,
  ⟨.v1, 0xFFFFFFFF00000000#64, 0x4000000000000000#64, fun w => .setdepth1 (opdOf w)⟩,
  ⟨.v2, 0xF7FFFFFF00000000#64, 0x4000000000000000#64, fun w => .setdepth2 (chOf w) (opdOf w)⟩,
  ⟨.v1, 0xFFFFFFFF00000000#64, 0x5000000000000000#64, fun w => .setmix (opdOf w)⟩,
  ⟨.v2, 0xF7FFFFFF00000000#64, 0x6000000000000000#64, fun w => .setmode (chOf w) (opdOf w)⟩,
  ⟨.v1, 0xFFFFFFFF00000000#64, 0x7000000000000000#64, fun w => .setbyp1 (opdOf w)⟩,
  ⟨.v2, 0xF7FFFFFF00000000#64, 0x7000000000000000#64, fun w => .setbyp2 (chOf w) (opdOf w)⟩,
  ⟨.v1, 0xFFFFFFFFFFFFFFFF#64, 0x8000000000000000#64, fun _ => .getlen1⟩,
  ⟨.v2, 0xF7FFFFFFFFFFFFFF#64, 0x8000000000000000#64, fun w => .getlen2 (chOf w)⟩,
  ⟨.v2, 0xFFFFFFFF00000000#64, 0x9000000000000000#64, fun w => .syncph (opdOf w)⟩,
  ⟨.v2, 0xFFFFFFFFFFFFFFFF#64, 0xA000000000000000#64, fun _ => .getph⟩]

/-- `w` selects row `r` on a device of variant `v` (rule R93). -/
def Row.selects (v : Variant) (w : Word64) (r : Row) : Bool :=
  r.variant == v && w &&& r.mask == r.pattern

/-! ## The decoder -/

/-- Why a word is illegal (rule R94). The device does not tell the cases apart (rule R212): the names
are for the reader and reach no state. -/
inductive DecodeError
  /-- `OPC` 0x0 or 0xB to 0xF. -/
  | reservedOpcode
  /-- A nonzero `RSV` bit. -/
  | reservedBits
  /-- A command of the other variant only: `SETMIX` on variant 2; `SETMODE`, `SYNCPH`, `GETPH` on
  variant 1. -/
  | otherVariant
  /-- `CH = 1` where it must be 0. -/
  | wrongChannel
  /-- A must-be-zero operand bit set. -/
  | operandBits
deriving DecidableEq, Repr

/-- The variant has no row with this operation code (rule R83, column "legal when"). -/
def missingIn (v : Variant) (opc : BitVec 4) : Bool :=
  match v with
  | .v1 => opc == 0x6 || opc == 0x9 || opc == 0xA
  | .v2 => opc == 0x5

/-- `CH` must be 0 for this operation code (rules R83, R84). -/
def channelFixed (v : Variant) (opc : BitVec 4) : Bool :=
  match v with
  | .v1 => true
  | .v2 => opc == 0x9 || opc == 0xA

/-- The reason a word that no row selects is illegal, the first that holds in the order of rule R94. -/
def whyIllegal (v : Variant) (w : Word64) : DecodeError :=
  if opcOf w == 0x0 || (0xB#4).ule (opcOf w) then .reservedOpcode
  else if rsvOf w != 0 then .reservedBits
  else if missingIn v (opcOf w) then .otherVariant
  else if channelFixed v (opcOf w) && w.getLsbD 59 then .wrongChannel
  else .operandBits

/-- `decode(VARIANT, CW)` of rule R100: the first row in table order that the word selects. -/
def decode (v : Variant) (w : Word64) : Except DecodeError Instr :=
  match rows.find? (Row.selects v w) with
  | some r => .ok (r.build w)
  | none => .error (whyIllegal v w)

/-! ## The encoder -/

/-- A command word from its four fields (rule R82), `RSV` zero. -/
def commandWord (opc : BitVec 4) (ch : Slot) (opd : Operand) : Word64 :=
  opc ++ BitVec.ofBool (bitOfSlot ch) ++ 0#27 ++ opd

/-- The operand of `INIT1`, format N1 (rule R88). -/
def operandN1 (len : BitVec 24) (p0 p1 : Bool) : Operand :=
  0#6 ++ BitVec.ofBool p1 ++ BitVec.ofBool p0 ++ len

/-- The operand of `INIT2`, format N2 (rule R88). -/
def operandN2 (len : BitVec 24) (p0 right : Bool) : Operand :=
  0#5 ++ BitVec.ofBool right ++ 0#1 ++ BitVec.ofBool p0 ++ len

/-- The operand of `PROC`, format K (rule R89). -/
def operandK (inValid : Bool) : Operand := 0#31 ++ BitVec.ofBool inValid

/-- The word of a command (rules R83, R85 to R92, R100). -/
def encode : Instr → Word64
  | .init1 len p0 p1 => commandWord 0x1 .s0 (operandN1 len p0 p1)
  | .init2 ch len p0 right => commandWord 0x1 ch (operandN2 len p0 right)
  | .proc1 inValid => commandWord 0x2 .s0 (operandK inValid)
  | .proc2 ch inValid => commandWord 0x2 ch (operandK inValid)
  | .setrate1 q => commandWord 0x3 .s0 q
  | .setrate2 ch q => commandWord 0x3 ch q
  | .setdepth1 q => commandWord 0x4 .s0 q
  | .setdepth2 ch q => commandWord 0x4 ch q
  | .setmix q => commandWord 0x5 .s0 q
  | .setmode ch m => commandWord 0x6 ch m
  | .setbyp1 b => commandWord 0x7 .s0 b
  | .setbyp2 ch b => commandWord 0x7 ch b
  | .getlen1 => commandWord 0x8 .s0 0
  | .getlen2 ch => commandWord 0x8 ch 0
  | .syncph p => commandWord 0x9 .s0 p
  | .getph => commandWord 0xA .s0 0

/-! ## Words numbered as `spec/opcode_table.json` numbers them -/

/-- The variant a word is read in when only the word is given: variant 1 if it is legal there, else
variant 2 (log entry 8: the same bits may be a command of both variants). -/
def tableVariant (w : Word64) : Variant :=
  match decode .v1 w with
  | .ok _ => .v1
  | .error _ => .v2

/-- The 64-bit command word of the `nbits` low bits of `w`, every higher bit 0. A command is one
64-bit word presented whole (rules R80, R82), so no byte order enters. -/
def tableWord (nbits w : Nat) : Word64 := BitVec.ofNat 64 (w % 2 ^ nbits)

/-- The command the decoder reads from a word of the opcode table, in the variant of `tableVariant`. -/
def decodeTableWord (nbits w : Nat) : Option Instr :=
  if 2 ^ 64 ≤ w % 2 ^ nbits then none
  else
    match decode (tableVariant (tableWord nbits w)) (tableWord nbits w) with
    | .ok i => some i
    | .error _ => none

end Sys2Proof
end

