-- ==== Sys2Proof/Machine/Real.lean ====
section
/-! DEFINITION. REAL arithmetic with the rounding hook (rules R14, R15), the conversion and clamping
primitives (rules R16, R140, R141, R144), and the values of the function-valued configuration fields
(rule R8). -/

namespace Sys2Proof.Machine

/-! ## The rounding hook -/

/-- `NUM.rnd(x)`. -/
def roundReal (c : Config) (x : Rat) : Rat :=
  match c.rounding with
  | .exact => x
  | .free k => Config.freeRound k x

/-- `x + y`, rounded (rule R14). -/
def radd (c : Config) (x y : Rat) : Rat := roundReal c (x + y)

/-- `x - y`, rounded (rule R14). -/
def rsub (c : Config) (x y : Rat) : Rat := roundReal c (x - y)

/-- `x * y`, rounded (rule R14). -/
def rmul (c : Config) (x y : Rat) : Rat := roundReal c (x * y)

/-- `x / y`, rounded (rule R14; the divisors are the constants that rule lists). -/
def rdiv (c : Config) (x y : Rat) : Rat := roundReal c (x / y)

/-! ## Primitives of rule R16 -/

/-- `clamp(x, lo, hi)` on REAL. -/
def clampReal (x lo hi : Rat) : Rat := if x < lo then lo else if hi < x then hi else x

/-- `clamp01(x)`. -/
def clamp01 (x : Rat) : Rat := clampReal x 0 1

/-- `clamp(v, lo, hi)` on integers. -/
def clampInt (v lo hi : Int) : Int := if v < lo then lo else if hi < v then hi else v

/-- `clamp16(v)` (rule R141). -/
def clamp16 (v : Int) : Int := clampInt v (-32768) 32767

/-- `abs(x)`. -/
def absReal (x : Rat) : Rat := if x < 0 then -x else x

/-- `sign(x)`, one of -1, 0, 1. -/
def signReal (x : Rat) : Rat := if x < 0 then -1 else if x = 0 then 0 else 1

/-- `trunc(x)`, which is `TOINT(x)` (rules R16, R140): rounding toward zero. -/
def toInt (x : Rat) : Int := if 0 ≤ x then x.floor else -(-x).floor

/-- `round_half_away(x)` (rule R144), a conversion like `TOINT`: exact, so that the weights are exact
wherever `m * 256` is (`93_implementation_defined.md` U8). -/
def roundHalfAway (x : Rat) : Int := if 0 ≤ x then (x + 1 / 2).floor else -(-x + 1 / 2).floor

/-- `asr8(v) = floor(v / 256)` (rule R16): the divisor is positive, so `Int`'s quotient is the floor. -/
def asr8 (v : Int) : Int := v / 256

/-! ## Configuration functions -/

/-- The fractional part of `x`, in [0, 1). -/
def fracPart (x : Rat) : Rat := x - x.floor

/-- `BEAT(p)` (rule R129). The arithmetic inside a configuration function is no rule's, so no rounding
is applied to it. -/
def beatAt (c : Config) (p : Rat) : Rat :=
  match c.beat with
  | .const value => value
  | .triangle amp mult =>
    let q := fracPart (mult * p)
    amp * (if q < 1 / 2 then 4 * q - 1 else 3 - 4 * q)
  | .free k => Config.freeBeat k p

/-- `V1_MAX_DELAY(CAP)` (rule R8). -/
def v1MaxDelayAt (c : Config) (cap : Nat) : Rat :=
  match c.v1MaxDelay with
  | .capMinus margin => cap - margin
  | .free k => Config.freeMaxDelay k cap

/-- `PHINC` of a rate (rules R29, R120). -/
def phaseIncrement (c : Config) (rate : Rat) : Rat := rdiv c rate c.fsHz

end Sys2Proof.Machine
end

