-- ==== Sys2Proof/Machine/State.lean ====
section
/-! DEFINITION. The state of the chorus core: the registers of rules R24 to R46, the four memory spaces
of rule R60, and what stands at the command port (rule R80). Registers of both variants stand side by
side; a device uses those its `VARIANT` has (rule R23) and never writes the others. -/

namespace Sys2Proof.Machine

/-! ## Registers -/

/-- The chorus mode, a U2 (rule R33). -/
inductive Mode
  | off
  | modeA
  | modeB
  | combined
deriving DecidableEq, Repr

/-- The registers `INST[c].…` of one engine (rules R24 to R36, R40). -/
structure Inst where
  /-- `INITED` (R24). -/
  inited  : Bool
  /-- `CAP` (R25). -/
  cap     : BitVec 24
  /-- `WIDX` (R27). -/
  widx    : BitVec 24
  /-- `RATE` in Hz (R28). -/
  rate    : Rat
  /-- `PHINC` in cycles per sample (R29). -/
  phinc   : Rat
  /-- `DEPTH` (R30). -/
  depth   : Rat
  /-- `BYPASS` (R35). -/
  bypass  : Bool
  /-- `IS_RIGHT`, variant 2 (R36). -/
  isRight : Bool
  /-- `MODE`, variant 2 (R33). -/
  mode    : Mode
  /-- `MINDS` in samples, variant 2 (R34). -/
  minds   : Rat
  /-- `MAXDS` in samples, variant 2 (R34). -/
  maxds   : Rat
  /-- `PRE_Y`, variant 2 (R40). -/
  preY    : Rat
  /-- `POST_Y`, variant 2 (R40). -/
  postY   : Rat
deriving DecidableEq, Repr

/-- The registers of `INST[0]` that variant 1 alone has (rules R31, R32, R37, R38). -/
structure V1Regs where
  /-- `MIX` (R31). -/
  mix    : Rat
  /-- `WET256` (R32). -/
  wet256 : BitVec 9
  /-- `DRY256` (R32). -/
  dry256 : BitVec 9
  /-- `BASE` in samples (R37). -/
  base   : Rat
  /-- `PH_L` in cycles (R38). -/
  phL    : Rat
  /-- `PH_R` in cycles (R38). -/
  phR    : Rat
deriving DecidableEq, Repr

/-- The block synchronisation latch `LATCH.…` of variant 2 (rules R41 to R46). -/
structure Latch where
  /-- `PHASE` (R41). -/
  phase : Rat
  /-- `VALID` (R42). -/
  valid : Bool
  /-- `START` (R43). -/
  start : Rat
  /-- `END` (R44). -/
  endPh : Rat
  /-- `READY` (R45). -/
  ready : Bool
  /-- `COUNT` (R46). -/
  count : BitVec 2
deriving DecidableEq, Repr

/-! ## Memory -/

/-- One memory space (rule R60) viewed as bytes (rule R65): the bytes that differ from what an unlisted
address reads as, by strictly rising address. -/
abbrev Memory := List Host.Cell

/-! ## The command port -/

/-- What the host does to the device from outside (rules R73, R80, R223). -/
inductive HostMove
  /-- Present a command word at the port (rule R80). -/
  | command (w : Word64)
  /-- Place one sample of an input block: word `n` of `BLK<c>` (rule R73). -/
  | putSample (c : Slot) (n : Nat) (v : Sample)
deriving DecidableEq, Repr

/-! ## State -/

/-- The whole machine. -/
structure State where
  /-- `CFG` (rule R8). Not state of the device (rule R22): it is fixed at build time and no step writes
  it. It stands here because the step has no other argument (log entry 2). -/
  cfg   : Config
  /-- `INST[0]`. -/
  inst0 : Inst
  /-- `INST[1]`, variant 2. -/
  inst1 : Inst
  /-- The registers of `INST[0]` that variant 1 alone has. -/
  v1    : V1Regs
  /-- `LATCH`, variant 2. -/
  latch : Latch
  /-- Memory space `DLY0`. -/
  dly0  : Memory
  /-- Memory space `DLY1`. -/
  dly1  : Memory
  /-- Memory space `BLK0`. -/
  blk0  : Memory
  /-- Memory space `BLK1`, variant 2. -/
  blk1  : Memory
  /-- The moves the host makes from here on, the next one first (the model's own field, log entry 6). -/
  input : List HostMove
  /-- The response word `RW` of the last command, none before the first (rules R80, R232; the model's
  own field, log entry 7). -/
  resp  : Option Word64
deriving DecidableEq, Repr

/-! ## How a step can stop -/

/-- Reasons the machine stops. None is an event of the device, which has no fault (rule R210); each is
reached only outside what the rules generate. -/
inductive Fault
  /-- Raised by `DL.STORE` when `WIDX` is no word of the delay space. Rule R64: no rule generates such an
  index; it needs a state that breaks invariant (a) of rule R51. Safe. -/
  | noSuchDelayWord
  /-- Raised by the host's move on a block window when the word does not exist: an index at or above
  `BLOCK_N`, or `BLK1` on a variant-1 device (rule R60). Safe. -/
  | noSuchBlockWord
  /-- Raised when a wrap loop (rules R113, R121) goes past the bound rule R252 gives it, which needs a
  rounding `NUM.rnd` other than the identity (log entry 9). Safe. -/
  | loopBoundExceeded
deriving DecidableEq, Repr

/-- Reasons an instruction is refused. -/
inductive Refusal
  /-- Raised by `exec` for an instruction with no meaning yet; no arm does. Safe. -/
  | notModelled (mnemonic : String)
deriving DecidableEq, Repr

/-! ## Reset -/

/-- An engine's registers after reset (rule R49). -/
def Inst.reset (c : Config) : Inst where
  inited := false
  cap := 0
  widx := 0
  rate := 1 / 2
  phinc := phaseIncrement c (1 / 2)
  depth := 1
  bypass := false
  isRight := false
  mode := .off
  minds := 0
  maxds := 0
  preY := 0
  postY := 0

/-- The variant-1 registers after reset (rule R49). -/
def V1Regs.reset (c : Config) : V1Regs where
  mix := 1 / 2
  wet256 := 128
  dry256 := 128
  base := c.v1BaseDelay
  phL := 0
  phR := 1 / 4

/-- The latch after reset (rule R49). -/
def Latch.reset : Latch where
  phase := 0
  valid := false
  start := 0
  endPh := 0
  ready := false
  count := 0

/-- The machine right after the reset of a device built as `c`, whose memory spaces hold `d0`, `d1`,
`b0`, `b1`: rule R49 leaves the contents unspecified, and they are an argument here
(`93_implementation_defined.md` U2). -/
def State.resetWith (c : Config) (d0 d1 b0 b1 : Memory) : State where
  cfg := c
  inst0 := Inst.reset c
  inst1 := Inst.reset c
  v1 := V1Regs.reset c
  latch := Latch.reset
  dly0 := d0
  dly1 := d1
  blk0 := b0
  blk1 := b1
  input := []
  resp := none

/-- The machine right after reset, in the reference configuration (log entry 1) and with memory that
lists nothing (log entry 10). -/
def State.reset : State := State.resetWith Config.reference [] [] [] []

end Sys2Proof.Machine
end

