-- ==== Sys2Proof/Machine/Flags.lean ====
section
/-! DEFINITION. The core keeps no arithmetic flag (rule R48). This file holds the status codes and the
response word that stand in their place (rules R96, R212), and how a command ends. -/

namespace Sys2Proof.Machine

/-- The status codes (rules R96, R212). -/
inductive Status
  | ok
  | initFail
  | notInit
  | illegal
deriving DecidableEq, Repr

/-- The two bits of a status code (rule R96). -/
def statusBits : Status → BitVec 2
  | .ok => 0
  | .initFail => 1
  | .notInit => 2
  | .illegal => 3

/-- The response word (rule R96): `STATUS` in 63:62, zeros, `FLAG` in 32, `VALUE` in 31:0. -/
def responseWord (status : Status) (flag : Bool) (value : BitVec 32) : Word64 :=
  statusBits status ++ 0#29 ++ BitVec.ofBool flag ++ value

/-- `s` with the response word `w` returned to the host. -/
def State.setResp (s : State) (w : Word64) : State := { s with resp := some w }

/-- `respond(flag, value)` (rules R16, R96): the command ends with status OK. -/
def respond (flag : Bool) (value : BitVec 32) (s : State) : State :=
  s.setResp (responseWord .ok flag value)

/-- `raise Status(code)` (rules R16, R96, R210): the command ends here, nothing else is written. This is
all there is of exception entry: no state is saved and no handler runs (rules R220, R221). -/
def raiseStatus (status : Status) (s : State) : State :=
  s.setResp (responseWord status false 0)

/-- The outcome of a computation that may stop with a fault. -/
def outcomeOf : Except Fault State → Host.Outcome State Fault Refusal
  | .ok s => .next s
  | .error f => .fault f

/-- A command of variant `v`: its effect on a device of that variant, status ILLEGAL on a device of the
other (rules R93, R94). -/
def onVariant (v : Variant) (s : State) (effect : Except Fault State) : Host.Outcome State Fault Refusal :=
  if s.cfg.variant = v then outcomeOf effect else .next (raiseStatus .illegal s)

end Sys2Proof.Machine
end

