-- ==== Sys2Proof/Machine/Operands.lean ====
section
/-! DEFINITION. The values of the operand formats Q, P, I and B (rules R86, R87, R90, R91). Formats N1,
N2 and K are fields of the command; format Z has no value. -/

namespace Sys2Proof.Machine

/-- Format Q: `q16(OPD) = sext_32(OPD) / 65536` (rules R16, R86). Exact: no rounding. -/
def q16 (opd : Operand) : Rat := opd.toInt / 65536

/-- Format P: `uq32(OPD) = zext_32(OPD) / 2^32` (rules R16, R87). Exact: no rounding. -/
def uq32 (opd : Operand) : Rat := opd.toNat / 4294967296

/-- The mode of an integer already clamped into [0, 3] (rule R33). -/
def modeOfInt (m : Int) : Mode :=
  if m = 1 then .modeA else if m = 2 then .modeB else if m = 3 then .combined else .off

/-- Format I: the requested mode, clamped into [0, 3] (rules R90, R186). -/
def modeOperand (opd : Operand) : Mode := modeOfInt (clampInt opd.toInt 0 3)

/-- Format B: nonzero is true (rule R91). -/
def boolOperand (opd : Operand) : Bool := opd != 0

end Sys2Proof.Machine
end

