-- ==== Sys2Proof/Machine/Ops.lean ====
section
/-! DEFINITION. The named operations over registers and memory: which registers and spaces a slot
names, one byte and one word of a space, and the fills of rules R67, R156 and R179. -/

namespace Sys2Proof.Machine

/-! ## Registers and spaces of a slot (rules R23, R60) -/

/-- `INST[c]`. -/
def State.inst (s : State) : Slot → Inst
  | .s0 => s.inst0
  | .s1 => s.inst1

/-- `INST[c] <- v`. -/
def State.setInst (s : State) (c : Slot) (v : Inst) : State :=
  match c with
  | .s0 => { s with inst0 := v }
  | .s1 => { s with inst1 := v }

/-- The variant-1 registers replaced. -/
def State.setV1 (s : State) (v : V1Regs) : State := { s with v1 := v }

/-- `LATCH` replaced. -/
def State.setLatch (s : State) (l : Latch) : State := { s with latch := l }

/-- The space `DLY<c>`. -/
def State.dly (s : State) : Slot → Memory
  | .s0 => s.dly0
  | .s1 => s.dly1

/-- `DLY<c>` replaced. -/
def State.setDly (s : State) (c : Slot) (m : Memory) : State :=
  match c with
  | .s0 => { s with dly0 := m }
  | .s1 => { s with dly1 := m }

/-- The space `BLK<c>`. -/
def State.blk (s : State) : Slot → Memory
  | .s0 => s.blk0
  | .s1 => s.blk1

/-- `BLK<c>` replaced. -/
def State.setBlk (s : State) (c : Slot) (m : Memory) : State :=
  match c with
  | .s0 => { s with blk0 := m }
  | .s1 => { s with blk1 := m }

/-! ## Bytes of a space -/

/-- What a byte that is not listed reads as. DESIGN CHOICE, unsafe (log entry 10): the contents after
reset are unspecified (rule R49). -/
def unlistedByte : Byte := 0

/-- The byte at address `a`. -/
def Memory.readByte : Memory → Nat → Byte
  | [], _ => unlistedByte
  | (b, v) :: m, a => if b = a then v else Memory.readByte m a

/-- The cell `(a, v)`, none where it would be what an unlisted byte reads as. -/
def Memory.cell (a : Nat) (v : Byte) : Memory := if v = unlistedByte then [] else [(a, v)]

/-- The byte at address `a` set to `v`, keeping the canonical form. -/
def Memory.writeByte : Memory → Nat → Byte → Memory
  | [], a, v => Memory.cell a v
  | (b, u) :: m, a, v =>
    if b < a then (b, u) :: Memory.writeByte m a v
    else if b = a then Memory.cell a v ++ m
    else Memory.cell a v ++ (b, u) :: m

/-- The canonical form: addresses strictly rising, no cell equal to what an unlisted byte reads as. -/
def Memory.wf (m : Memory) : Bool :=
  decide (m.Pairwise fun x y => x.1 < y.1) && m.all fun x => x.2 != unlistedByte

/-! ## Words of a space (rules R63, R65) -/

/-- `MemRead(S.i, 1)`: word `i`, its low byte at byte `2 i` (rule R65). -/
def Memory.readWord (m : Memory) (i : Nat) : Sample :=
  Memory.readByte m (2 * i + 1) ++ Memory.readByte m (2 * i)

/-- `MemWrite(S.i, 1, v)`. -/
def Memory.writeWord (m : Memory) (i : Nat) (v : Sample) : Memory :=
  Memory.writeByte (Memory.writeByte m (2 * i) (v.extractLsb' 0 8)) (2 * i + 1) (v.extractLsb' 8 8)

/-- `for i in 0 .. n-1: MemWrite(S.i, 1, 0)` (rules R67, R152, R172, R156, R179). A byte of zero is not
listed, so the loop leaves the cells at and above byte `2 n`; `Memory.zeroWords_eq_loop` proves the two
equal. -/
def Memory.zeroWords (m : Memory) (n : Nat) : Memory := m.filter fun x => decide (2 * n ≤ x.1)

/-- The loop that `Memory.zeroWords` stands for, in ascending index order (rule R67). -/
def Memory.zeroLoop (m : Memory) : Nat → Memory
  | 0 => m
  | n + 1 => Memory.writeWord (Memory.zeroLoop m n) n 0

/-! ## The block window -/

/-- `MemRead(BLK<c>.n, 1)`. -/
def State.blkWord (s : State) (c : Slot) (n : Nat) : Sample := Memory.readWord (s.blk c) n

/-- `MemWrite(BLK<c>.n, 1, v)`. -/
def State.setBlkWord (s : State) (c : Slot) (n : Nat) (v : Sample) : State :=
  s.setBlk c (Memory.writeWord (s.blk c) n v)

/-- The zero fill of a missing input block (rules R156, R179). -/
def substituteSilence (c : Slot) (inValid : Bool) (s : State) : State :=
  if inValid then s else s.setBlk c (Memory.zeroWords (s.blk c) s.cfg.blockN)

/-- The variants in which `BLK<c>` exists (rule R60). -/
def hasBlock (v : Variant) : Slot → Bool
  | .s0 => true
  | .s1 => v == .v2

/-- The host places sample `v` at word `n` of `BLK<c>` between commands (rules R60, R73). -/
def hostPutSample (c : Slot) (n : Nat) (v : Sample) (s : State) : Except Fault State :=
  if hasBlock s.cfg.variant c && decide (n < s.cfg.blockN) then .ok (s.setBlkWord c n v)
  else .error .noSuchBlockWord

/-! ## The sample loop -/

/-- `for n in 0 .. k-1: f n`, in ascending order (rule R21). -/
def forSamples {σ : Type} (f : Nat → σ → Except Fault σ) : Nat → σ → Except Fault σ
  | 0, x => .ok x
  | k + 1, x =>
    match forSamples f k x with
    | .ok y => f k y
    | .error e => .error e

end Sys2Proof.Machine
end

