-- ==== Sys2Proof/Machine/Datapath.lean ====
section
/-! DEFINITION. The one-pole filter, the soft clipper, the wet average and the fixed-point mix
(rules R135 to R149). -/

namespace Sys2Proof.Machine

/-- `ONEPOLE(y, a, x)` (rule R135). -/
def onepole (c : Config) (y a x : Rat) : Rat := radd c y (rmul c a (rsub c x y))

/-- `clamp16` of an integer, as a sample (rule R141). -/
def sampleOf (v : Int) : Sample := BitVec.ofInt 16 (clamp16 v)

/-- `SOFTCLIP(x)` (rule R142). -/
def softclip (c : Config) (x : Rat) : Rat :=
  if absReal x ≤ c.satT then x
  else rmul c (signReal x) (radd c c.satT (rmul c (rsub c (absReal x) c.satT) c.satK))

/-- `WET256` of a mix value (rules R32, R144), an integer in [0, 256]. -/
def wetWeight (c : Config) (mix : Rat) : Int := clampInt (roundHalfAway (rmul c mix 256)) 0 256

/-- `MIX8(x, w, WET256, DRY256)` (rule R145). -/
def mix8 (x : Sample) (w : Int) (wet256 dry256 : BitVec 9) : Sample :=
  sampleOf (asr8 (x.toInt * dry256.toNat + w * wet256.toNat))

/-- The variant-1 wet value `TOINT((rl + rr) / 2)` (rule R147). -/
def wetAverage (c : Config) (rl rr : Rat) : Int := toInt (rdiv c (radd c rl rr) 2)

end Sys2Proof.Machine
end

