-- ==== Sys2Proof/Machine/DelayLine.lean ====
section
/-! DEFINITION. The circular delay line (rules R110 to R119). -/

namespace Sys2Proof.Machine

/-! ## Wrapping by repeated subtraction and addition (rules R113, R121) -/

/-- `while p >= m: p = p - m`, at most `fuel` times (rule R252). -/
def wrapDown (c : Config) (m : Rat) : Nat → Rat → Except Fault Rat
  | 0, p => if p < m then .ok p else .error .loopBoundExceeded
  | fuel + 1, p => if p < m then .ok p else wrapDown c m fuel (rsub c p m)

/-- `while p < 0: p = p + m`, at most `fuel` times (rule R252). -/
def wrapUp (c : Config) (m : Rat) : Nat → Rat → Except Fault Rat
  | 0, p => if 0 ≤ p then .ok p else .error .loopBoundExceeded
  | fuel + 1, p => if 0 ≤ p then .ok p else wrapUp c m fuel (radd c p m)

/-! ## The primitives -/

/-- `DL.STORE(c, v)` (rule R110). -/
def dlStore (c : Slot) (v : Sample) (s : State) : Except Fault State :=
  if (s.inst c).widx.toNat < (s.inst c).cap.toNat then
    .ok (s.setDly c (Memory.writeWord (s.dly c) (s.inst c).widx.toNat v))
  else .error .noSuchDelayWord

/-- `DL.ADVANCE(c)` (rule R111). -/
def dlAdvance (c : Slot) (s : State) : State :=
  let i := s.inst c
  s.setInst c { i with widx := BitVec.ofNat 24 ((i.widx.toNat + 1) % i.cap.toNat) }

/-- `DL.WRITE(c, v)` (rule R112). No engine uses it. -/
def dlWrite (c : Slot) (v : Sample) (s : State) : Except Fault State :=
  match dlStore c v s with
  | .ok t => .ok (dlAdvance c t)
  | .error e => .error e

/-- The bound of each wrap loop of `DL.READI`: `ceil(abs(d) / CAP) + 1` (rule R252). -/
def readBound (cap : Nat) (d : Rat) : Nat := (absReal d / cap).ceil.toNat + 1

/-- The read position of `DL.READI` wrapped into [0, CAP) (rule R113). -/
def readPosition (c : Config) (cap widx : Nat) (d : Rat) : Except Fault Rat :=
  match wrapUp c cap (readBound cap d) (rsub c widx d) with
  | .ok p => wrapDown c cap (readBound cap d) p
  | .error e => .error e

/-- The interpolation `a + frac * (b - a)` of rule R113 (decision D6). -/
def interpolate (c : Config) (frac : Rat) (a b : Int) : Rat := radd c a (rmul c frac (rsub c b a))

/-- The value of `DL.READI` at a wrapped position (rule R113). -/
def readAt (c : Config) (m : Memory) (cap : Nat) (pos : Rat) : Rat :=
  let base := pos.floor.toNat
  let next := (base + 1) % cap
  interpolate c (rsub c pos base) (Memory.readWord m base).toInt (Memory.readWord m next).toInt

/-- `DL.READI(c, d)` (rule R113). -/
def dlReadI (c : Slot) (d : Rat) (s : State) : Except Fault Rat :=
  match readPosition s.cfg (s.inst c).cap.toNat (s.inst c).widx.toNat d with
  | .ok pos => .ok (readAt s.cfg (s.dly c) (s.inst c).cap.toNat pos)
  | .error e => .error e

end Sys2Proof.Machine
end

