-- ==== Sys2Proof/Machine/Lfo.lean ====
section
/-! DEFINITION. The LFO: phase accumulator and waveforms (rules R120 to R133). -/

namespace Sys2Proof.Machine

/-- The bound of each loop of `LFO.WRAP`: enough for every argument in exact arithmetic, as rule R121's
"the function is total" asks; rule R252's bound for [0, 2) is 1. -/
def wrapBound (p : Rat) : Nat := (absReal p).ceil.toNat + 1

/-- `LFO.WRAP(p)` (rule R121). -/
def lfoWrap (c : Config) (p : Rat) : Except Fault Rat :=
  match wrapDown c 1 (wrapBound p) p with
  | .ok q => wrapUp c 1 (wrapBound p) q
  | .error e => .error e

/-- `LFO.ADVANCE(p, inc)` (rule R122). -/
def lfoAdvance (c : Config) (p inc : Rat) : Except Fault Rat := lfoWrap c (radd c p inc)

/-- `TRI01(p)` (rule R125). -/
def tri01 (c : Config) (p : Rat) : Rat := if p < 1 / 2 then rmul c 2 p else rsub c 2 (rmul c 2 p)

/-- `TRI(p)` (rule R126). -/
def tri (c : Config) (p : Rat) : Rat :=
  if p < 1 / 2 then rsub c (rmul c 4 p) 1 else rsub c 3 (rmul c 4 p)

/-- `COMPOSITE(p)` (rule R129). -/
def composite (c : Config) (p : Rat) : Rat := clamp01 (radd c (tri01 c p) (beatAt c p))

/-- The effective phase of an instance at local phase `lp` (rule R128). -/
def effectivePhase (c : Config) (isRight : Bool) (lp : Rat) : Except Fault Rat :=
  if isRight then lfoWrap c (radd c lp (1 / 2)) else .ok lp

/-- `LFOVAL2(m, pe)` (rule R131). Mode 0 never evaluates it. -/
def lfoVal2 (c : Config) (m : Mode) (pe : Rat) : Rat :=
  if m = .combined then composite c pe else tri01 c pe

end Sys2Proof.Machine
end

