-- ==== Sys2Proof/Machine/EngineV1.lean ====
section
/-! DEFINITION. The commands of a variant-1 device (rules R150 to R167). Its one engine is `INST[0]`. -/

namespace Sys2Proof.Machine

/-! ## The sample loop of PROC1 -/

/-- `V1DELAY(t)` (rule R158). -/
def v1Delay (s : State) (t : Rat) : Rat :=
  clampReal (radd s.cfg s.v1.base (rmul s.cfg (rmul s.cfg t s.inst0.depth) s.cfg.v1ModRange))
    s.cfg.v1MinDelay (v1MaxDelayAt s.cfg s.inst0.cap.toNat)

/-- Steps 2 to 5 of rule R157: the wet value of the two taps, read while `WIDX` still names the sample
just stored. -/
def v1Wet (s : State) : Except Fault Int :=
  match dlReadI .s0 (v1Delay s (tri s.cfg s.v1.phL)) s, dlReadI .s0 (v1Delay s (tri s.cfg s.v1.phR)) s with
  | .ok rl, .ok rr => .ok (wetAverage s.cfg rl rr)
  | .error e, _ => .error e
  | _, .error e => .error e

/-- Step 7 of rule R157 for the two phases. -/
def v1Advance (s : State) : Except Fault State :=
  match lfoAdvance s.cfg s.v1.phL s.inst0.phinc, lfoAdvance s.cfg s.v1.phR s.inst0.phinc with
  | .ok pl, .ok pr => .ok (s.setV1 { s.v1 with phL := pl, phR := pr })
  | .error e, _ => .error e
  | _, .error e => .error e

/-- `PROC1`: one processed sample `n` (rule R157). -/
def v1Sample (n : Nat) (s : State) : Except Fault State :=
  match dlStore .s0 (s.blkWord .s0 n) s with
  | .error e => .error e
  | .ok t =>
    match v1Wet t with
    | .error e => .error e
    | .ok w =>
      let y := mix8 (s.blkWord .s0 n) w t.v1.wet256 t.v1.dry256
      v1Advance (dlAdvance .s0 (t.setBlkWord .s0 n y))

/-! ## The commands -/

/-- `INIT1 len, p0, p1` (rules R151 to R153). -/
def execInit1 (len : BitVec 24) (p0 p1 : Bool) (s : State) : Host.Outcome State Fault Refusal :=
  onVariant .v1 s <|
    if !p0 || !p1 || decide (len.toNat < v1MinLen) then .ok (raiseStatus .initFail s)
    else
      let i := s.inst0
      .ok (respond true 0
        ((((s.setInst .s0 { i with inited := true, cap := len, widx := 0 }).setV1
          { s.v1 with base := s.cfg.v1BaseDelay, phL := 0, phR := 1 / 4 }).setDly .s0
          (Memory.zeroWords s.dly0 len.toNat)).setDly .s1
          (Memory.zeroWords s.dly1 len.toNat)))

/-- `PROC1 in` (rules R154 to R159). -/
def execProc1 (inValid : Bool) (s : State) : Host.Outcome State Fault Refusal :=
  onVariant .v1 s <|
    if s.inst0.inited = false then .ok (raiseStatus .notInit s)
    else
      let t := substituteSilence .s0 inValid s
      if s.inst0.bypass then .ok (respond true 0 t)
      else
        match forSamples v1Sample s.cfg.blockN t with
        | .ok u => .ok (respond true 0 u)
        | .error e => .error e

/-- `SETRATE hz`, variant 1 (rule R162). -/
def execSetrate1 (q : Operand) (s : State) : Host.Outcome State Fault Refusal :=
  onVariant .v1 s <|
    let i := s.inst0
    let r := clampReal (q16 q) v1RateMin v1RateMax
    .ok (respond true 0 (s.setInst .s0 { i with rate := r, phinc := phaseIncrement s.cfg r }))

/-- `SETDEPTH u`, variant 1 (rule R163). -/
def execSetdepth1 (q : Operand) (s : State) : Host.Outcome State Fault Refusal :=
  onVariant .v1 s <|
    let i := s.inst0
    .ok (respond true 0 (s.setInst .s0 { i with depth := clamp01 (q16 q) }))

/-- `SETMIX u` (rule R164). -/
def execSetmix (q : Operand) (s : State) : Host.Outcome State Fault Refusal :=
  onVariant .v1 s <|
    let m := clamp01 (q16 q)
    let wet := wetWeight s.cfg m
    .ok (respond true 0
      (s.setV1 { s.v1 with mix := m, wet256 := BitVec.ofInt 9 wet, dry256 := BitVec.ofInt 9 (256 - wet) }))

/-- `SETBYP b`, variant 1 (rule R165). -/
def execSetbyp1 (b : Operand) (s : State) : Host.Outcome State Fault Refusal :=
  onVariant .v1 s <|
    let i := s.inst0
    .ok (respond true 0 (s.setInst .s0 { i with bypass := boolOperand b }))

/-- `GETLEN`, variant 1 (rule R166). -/
def execGetlen1 (s : State) : Host.Outcome State Fault Refusal :=
  onVariant .v1 s (.ok (respond true (s.inst0.cap.setWidth 32) s))

end Sys2Proof.Machine
end

