-- ==== Sys2Proof/Machine/LatchOps.lean ====
section
/-! DEFINITION. The operations of the block synchronisation latch (rules R195 to R199). -/

namespace Sys2Proof.Machine

/-- `LATCH.BEGIN()` (rule R196). The local phase it returns is `START` of the result. -/
def latchBegin (l : Latch) : Latch :=
  if l.valid then l
  else { l with start := l.phase, valid := true, count := 0, ready := false }

/-- First part of `LATCH.END(c, lp, publish)`: publication by the primary (rule R197). -/
def latchPublish (isRight publish : Bool) (lp : Rat) (l : Latch) : Latch :=
  if publish && !isRight then { l with endPh := lp, ready := true } else l

/-- Second part of `LATCH.END(c, lp, publish)`: count, commit, invalidate (rule R198). -/
def latchCount (l : Latch) : Latch :=
  if 2 ≤ l.count.toNat + 1 then
    { l with
      phase := if l.ready then l.endPh else l.phase
      valid := false
      count := 0
      ready := false }
  else { l with count := BitVec.ofNat 2 (l.count.toNat + 1) }

/-- `LATCH.END(c, lp, publish)` (rules R197, R198). -/
def latchEnd (isRight publish : Bool) (lp : Rat) (l : Latch) : Latch :=
  latchCount (latchPublish isRight publish lp l)

end Sys2Proof.Machine
end

