-- ==== Sys2Proof/Machine/EngineV2.lean ====
section
/-! DEFINITION. The commands of a variant-2 device that address one engine (rules R170 to R190). -/

namespace Sys2Proof.Machine

/-! ## Modes (rules R9, R186, R189) -/

/-- The table row of a mode; mode 0 has none. -/
def modeRow (c : Config) : Mode → Option ModeRow
  | .off => none
  | .modeA => some c.mode1
  | .modeB => some c.mode2
  | .combined => some c.mode3

/-- `MODE_MINDS[m]` (rule R9). -/
def rowMinDs (c : Config) (r : ModeRow) : Rat := rmul c r.minS c.fsHz

/-- `MODE_MAXDS[m]` (rule R9). -/
def rowMaxDs (c : Config) (r : ModeRow) : Rat := rmul c r.maxS c.fsHz

/-- The registers `SETMODE` writes for mode `m` (rule R186). -/
def withMode (c : Config) (m : Mode) (i : Inst) : Inst :=
  match modeRow c m with
  | none => { i with mode := m }
  | some r =>
    let rate := clampReal r.rate c.v2RateMin c.v2RateMax
    { i with
      mode := m
      rate := rate
      phinc := phaseIncrement c rate
      depth := clamp01 r.depth
      minds := rowMinDs c r
      maxds := rowMaxDs c r }

/-! ## The sample loop of PROC2 -/

/-- The pass-through condition (rule R175). -/
def passThrough (i : Inst) : Bool := i.bypass || i.mode == .off

/-- `V2DELAY(c, v)` (rule R181). -/
def v2Delay (c : Config) (i : Inst) (v : Rat) : Rat :=
  let span := rsub c i.maxds i.minds
  let off := if i.isRight then c.v2RightOffset else 0
  clampReal (radd c (radd c i.minds (rmul c (rmul c v i.depth) span)) off) i.minds i.maxds

/-- Step 1 of rule R180: the new `PRE_Y` of slot `c` for input sample `x`. -/
def v2Prefilter (c : Slot) (x : Sample) (s : State) : State :=
  let i := s.inst c
  s.setInst c { i with preY := onepole s.cfg i.preY s.cfg.aPre x.toInt }

/-- Steps 3 to 5 of rule R180: the delayed sample of slot `c` at local phase `lp`. -/
def v2Read (c : Slot) (lp : Rat) (s : State) : Except Fault Rat :=
  match effectivePhase s.cfg (s.inst c).isRight lp with
  | .ok pe => dlReadI c (v2Delay s.cfg (s.inst c) (lfoVal2 s.cfg (s.inst c).mode pe)) s
  | .error e => .error e

/-- Steps 6 to 8 of rule R180: the post-filter, the soft clip and the output at word `n`. -/
def v2Output (c : Slot) (n : Nat) (r : Rat) (s : State) : State :=
  let i := s.inst c
  let y := onepole s.cfg i.postY s.cfg.aPost r
  (s.setInst c { i with postY := y }).setBlkWord c n (sampleOf (toInt (softclip s.cfg y)))

/-- `PROC2`: one processed sample `n` of slot `c`, carrying the local phase (rule R180). -/
def v2Sample (c : Slot) (n : Nat) (x : State × Rat) : Except Fault (State × Rat) :=
  let t := v2Prefilter c (x.1.blkWord c n) x.1
  match dlStore c (sampleOf (toInt (t.inst c).preY)) t with
  | .error e => .error e
  | .ok u =>
    match v2Read c x.2 u, lfoAdvance u.cfg x.2 (u.inst c).phinc with
    | .ok r, .ok lp => .ok (dlAdvance c (v2Output c n r u), lp)
    | .error e, _ => .error e
    | _, .error e => .error e

/-- The sample loop of `PROC2` between `LATCH.BEGIN` and `LATCH.END`, skipped in pass-through
(rule R176). -/
def v2Loop (c : Slot) (pass : Bool) (x : State × Rat) : Except Fault (State × Rat) :=
  if pass then .ok x else forSamples (v2Sample c) x.1.cfg.blockN x

/-- `LATCH.BEGIN`, the sample loop and `LATCH.END` (rules R176, R182, R196 to R198). -/
def v2Block (c : Slot) (pass : Bool) (s : State) : Except Fault State :=
  let l := latchBegin s.latch
  match v2Loop c pass (s.setLatch l, l.start) with
  | .ok (t, lp) => .ok (respond true 0 (t.setLatch (latchEnd (t.inst c).isRight (!pass) lp t.latch)))
  | .error e => .error e

/-! ## The commands -/

/-- `INIT2 ch, len, p0, right` (rules R171 to R173). -/
def execInit2 (ch : Slot) (len : BitVec 24) (p0 right : Bool) (s : State) : Host.Outcome State Fault Refusal :=
  onVariant .v2 s <|
    if !p0 || decide (len.toNat < v2MinLen) then .ok (raiseStatus .initFail s)
    else
      let i := s.inst ch
      .ok (respond true 0
        ((s.setInst ch
          { i with inited := true, cap := len, widx := 0, isRight := right, preY := 0, postY := 0 }).setDly ch
          (Memory.zeroWords (s.dly ch) len.toNat)))

/-- `PROC2 ch, in` (rules R175 to R182). -/
def execProc2 (ch : Slot) (inValid : Bool) (s : State) : Host.Outcome State Fault Refusal :=
  onVariant .v2 s <|
    if (s.inst ch).inited = false then .ok (raiseStatus .notInit s)
    else
      let t := substituteSilence ch inValid s
      let pass := passThrough (s.inst ch)
      if pass && !s.cfg.bypassTouchesLatch then .ok (respond true 0 t) else v2Block ch pass t

/-- `SETRATE ch, hz`, variant 2 (rule R184). -/
def execSetrate2 (ch : Slot) (q : Operand) (s : State) : Host.Outcome State Fault Refusal :=
  onVariant .v2 s <|
    let i := s.inst ch
    let r := clampReal (q16 q) s.cfg.v2RateMin s.cfg.v2RateMax
    .ok (respond true 0 (s.setInst ch { i with rate := r, phinc := phaseIncrement s.cfg r }))

/-- `SETDEPTH ch, u`, variant 2 (rule R185). -/
def execSetdepth2 (ch : Slot) (q : Operand) (s : State) : Host.Outcome State Fault Refusal :=
  onVariant .v2 s <|
    let i := s.inst ch
    .ok (respond true 0 (s.setInst ch { i with depth := clamp01 (q16 q) }))

/-- `SETMODE ch, m` (rule R186). -/
def execSetmode (ch : Slot) (m : Operand) (s : State) : Host.Outcome State Fault Refusal :=
  onVariant .v2 s (.ok (respond true 0 (s.setInst ch (withMode s.cfg (modeOperand m) (s.inst ch)))))

/-- `SETBYP ch, b`, variant 2 (rule R187). -/
def execSetbyp2 (ch : Slot) (b : Operand) (s : State) : Host.Outcome State Fault Refusal :=
  onVariant .v2 s <|
    let i := s.inst ch
    .ok (respond true 0 (s.setInst ch { i with bypass := boolOperand b }))

/-- `GETLEN ch`, variant 2 (rule R188). -/
def execGetlen2 (ch : Slot) (s : State) : Host.Outcome State Fault Refusal :=
  onVariant .v2 s (.ok (respond true ((s.inst ch).cap.setWidth 32) s))

end Sys2Proof.Machine
end

