-- ==== Sys2Proof/Machine/LatchCommands.lean ====
section
/-! DEFINITION. The two commands that reach the shared phase from outside (rules R203, R204). -/

namespace Sys2Proof.Machine

/-- `SYNCPH phase` (rule R203). -/
def execSyncph (p : Operand) (s : State) : Host.Outcome State Fault Refusal :=
  onVariant .v2 s (.ok (respond true 0 (s.setLatch { s.latch with phase := uq32 p })))

/-- `GETPH` (rule R204): the shared phase truncated to Q0.32, the inverse of the reading `uq32`, and like
it exact (log entry 11). -/
def execGetph (s : State) : Host.Outcome State Fault Refusal :=
  onVariant .v2 s (.ok (respond true (BitVec.ofInt 32 (s.latch.phase * 4294967296).floor) s))

end Sys2Proof.Machine
end

