-- ==== Sys2Proof/Machine/Dispatch.lean ====
section
/-! DEFINITION. One arm per command. -/

namespace Sys2Proof.Machine

/-- The effect of a command on the machine. -/
def exec (i : Instr) (s : State) : Host.Outcome State Fault Refusal :=
  match i with
  | .init1 len p0 p1 => Sys2Proof.Machine.execInit1 len p0 p1 s
  | .init2 ch len p0 right => Sys2Proof.Machine.execInit2 ch len p0 right s
  | .proc1 inValid => Sys2Proof.Machine.execProc1 inValid s
  | .proc2 ch inValid => Sys2Proof.Machine.execProc2 ch inValid s
  | .setrate1 q => Sys2Proof.Machine.execSetrate1 q s
  | .setrate2 ch q => Sys2Proof.Machine.execSetrate2 ch q s
  | .setdepth1 q => Sys2Proof.Machine.execSetdepth1 q s
  | .setdepth2 ch q => Sys2Proof.Machine.execSetdepth2 ch q s
  | .setmix q => Sys2Proof.Machine.execSetmix q s
  | .setmode ch m => Sys2Proof.Machine.execSetmode ch m s
  | .setbyp1 b => Sys2Proof.Machine.execSetbyp1 b s
  | .setbyp2 ch b => Sys2Proof.Machine.execSetbyp2 ch b s
  | .getlen1 => Sys2Proof.Machine.execGetlen1 s
  | .getlen2 ch => Sys2Proof.Machine.execGetlen2 ch s
  | .syncph p => Sys2Proof.Machine.execSyncph p s
  | .getph => Sys2Proof.Machine.execGetph s

end Sys2Proof.Machine
end

