-- ==== Sys2Proof/Machine/Step.lean ====
section
/-! DEFINITION. One step: the next move of the host (rules R80, R219, R222). The core fetches nothing
(rules R21, R77); a command word comes from the port. -/

namespace Sys2Proof.Machine

/-- One step. With no move left the device is idle and all state is held (rules R229, R232). A command
word is decoded for the device's variant and executed to completion; an illegal word changes nothing
and is answered with status ILLEGAL (rule R94). -/
def step (s : State) : Host.Outcome State Fault Refusal :=
  match s.input with
  | [] => .next s
  | .putSample c n v :: rest => outcomeOf (hostPutSample c n v { s with input := rest })
  | .command w :: rest =>
    match decode s.cfg.variant w with
    | .ok i => exec i { s with input := rest }
    | .error _ => .next (raiseStatus .illegal { s with input := rest })

/-- `s` with the word of `decodeTableWord` presented next at the port. A device decodes for the variant
it was built with, so the variant that `decodeTableWord` reads the word in is selected too
(log entry 8). -/
def State.withFetchWord (s : State) (nbits w : Nat) : State :=
  { s with
    cfg := { s.cfg with variant := tableVariant (tableWord nbits w) }
    input := .command (tableWord nbits w) :: s.input }

end Sys2Proof.Machine
end

