-- ==== Sys2Proof/Safety.lean ====
section
/-! DEFINITION. What a claim about the machine may assume and what it says is kept: the constraints of
the configuration record (rules R8, R15, R254), the well-formedness predicate of a state (rule R51), and
the host's obligation on the delay lines (rule R241). -/

namespace Sys2Proof.Machine

/-! ## The configuration -/

/-- The constraints a rounding `NUM.rnd` keeps (rule R15). -/
structure RoundingAdmissible (c : Config) : Prop where
  /-- Exact on the integers of magnitude at most `2^24`. -/
  int_exact : ∀ k : Int, -16777216 ≤ k → k ≤ 16777216 → roundReal c (k : Rat) = (k : Rat)
  /-- Monotone non-decreasing. -/
  monotone : ∀ x y : Rat, x ≤ y → roundReal c x ≤ roundReal c y
  /-- Odd. -/
  odd : ∀ x : Rat, roundReal c (-x) = -roundReal c x

/-- The constraints a row of the mode tables meets (rule R8). -/
structure ModeRowAdmissible (c : Config) (r : ModeRow) : Prop where
  rate_ge  : c.v2RateMin ≤ r.rate
  rate_le  : r.rate ≤ c.v2RateMax
  min_ge   : 0 ≤ r.minS
  max_ge   : r.minS ≤ r.maxS
  depth_ge : 0 ≤ r.depth
  depth_le : r.depth ≤ 1

/-- The constraints of rule R8's table, with those of rule R15 on `NUM.rnd`. -/
structure ConfigAdmissible (c : Config) : Prop where
  fs_gt_5       : 5 < c.fsHz
  fs_gt_rate    : c.v2RateMax < c.fsHz
  block_pos     : 1 ≤ c.blockN
  rate_pos      : 0 < c.v2RateMin
  rate_le       : c.v2RateMin ≤ c.v2RateMax
  mod_ge        : 0 ≤ c.v1ModRange
  min_delay_ge  : 0 ≤ c.v1MinDelay
  max_delay_ge  : ∀ cap : Nat, v1MinLen ≤ cap → cap < 16777216 → c.v1MinDelay ≤ v1MaxDelayAt c cap
  max_delay_le  : ∀ cap : Nat, v1MinLen ≤ cap → cap < 16777216 → v1MaxDelayAt c cap ≤ (cap : Rat) - 1
  mode1_ok      : ModeRowAdmissible c c.mode1
  mode2_ok      : ModeRowAdmissible c c.mode2
  mode3_ok      : ModeRowAdmissible c c.mode3
  offset_ge     : 0 ≤ c.v2RightOffset
  a_pre_ge      : 0 ≤ c.aPre
  a_pre_le      : c.aPre ≤ 1
  a_post_ge     : 0 ≤ c.aPost
  a_post_le     : c.aPost ≤ 1
  sat_t_pos     : 0 < c.satT
  sat_k_ge      : 0 ≤ c.satK
  sat_k_le      : c.satK ≤ 1
  rounding_ok   : RoundingAdmissible c

/-- The lower rate clamp of the device's variant (rule R28). -/
def rateMin (c : Config) : Rat :=
  match c.variant with
  | .v1 => v1RateMin
  | .v2 => c.v2RateMin

/-- The upper rate clamp of the device's variant (rule R28). -/
def rateMax (c : Config) : Rat :=
  match c.variant with
  | .v1 => v1RateMax
  | .v2 => c.v2RateMax

/-- The minimum length of the device's variant (rule R25). -/
def minLen (c : Config) : Nat :=
  match c.variant with
  | .v1 => v1MinLen
  | .v2 => v2MinLen

/-! ## Well-formed states (rule R51) -/

/-- `x` is a canonical phase, in [0, 1). -/
def IsPhase (x : Rat) : Prop := 0 ≤ x ∧ x < 1

/-- An engine's registers, clauses (a) to (c) of rule R51, and the delay range of the current mode
(rule R34). -/
structure InstOk (c : Config) (i : Inst) : Prop where
  widx_lt  : i.inited = true → i.widx.toNat < i.cap.toNat
  cap_ge   : i.inited = true → minLen c ≤ i.cap.toNat
  phinc_eq : i.phinc = phaseIncrement c i.rate
  rate_ge  : rateMin c ≤ i.rate
  rate_le  : i.rate ≤ rateMax c
  depth_ge : 0 ≤ i.depth
  depth_le : i.depth ≤ 1
  range_eq : ∀ r, modeRow c i.mode = some r → i.minds = rowMinDs c r ∧ i.maxds = rowMaxDs c r

/-- The variant-1 registers, clauses (c) to (e) of rule R51, and rules R32 and R37. -/
structure V1Ok (c : Config) (v : V1Regs) : Prop where
  mix_ge      : 0 ≤ v.mix
  mix_le      : v.mix ≤ 1
  weights_sum : v.wet256.toNat + v.dry256.toNat = 256
  wet_eq      : (v.wet256.toNat : Int) = wetWeight c v.mix
  base_eq     : v.base = c.v1BaseDelay
  phL_ok      : IsPhase v.phL
  phR_ok      : IsPhase v.phR

/-- The latch, clauses (e) to (g) of rule R51. -/
structure LatchOk (l : Latch) : Prop where
  phase_ok : IsPhase l.phase
  start_ok : IsPhase l.start
  end_ok   : IsPhase l.endPh
  count_le : l.count.toNat ≤ 1
  idle     : l.valid = false → l.count = 0 ∧ l.ready = false

/-- The well-formedness predicate of a state (rule R51), with the constraints of its configuration and
the canonical form of its memory. -/
structure StateOk (s : State) : Prop where
  cfg_ok   : ConfigAdmissible s.cfg
  inst0_ok : InstOk s.cfg s.inst0
  inst1_ok : InstOk s.cfg s.inst1
  v1_ok    : V1Ok s.cfg s.v1
  latch_ok : LatchOk s.latch
  dly0_wf  : Memory.wf s.dly0 = true
  dly1_wf  : Memory.wf s.dly1 = true
  blk0_wf  : Memory.wf s.blk0 = true
  blk1_wf  : Memory.wf s.blk1 = true

/-- The filter states lie in the sample range (rule R136). -/
structure FiltersOk (i : Inst) : Prop where
  pre_ge  : -32768 ≤ i.preY
  pre_le  : i.preY ≤ 32767
  post_ge : -32768 ≤ i.postY
  post_le : i.postY ≤ 32767

/-! ## The sample recurrences in exact arithmetic

The per-sample bodies of rules R157 and R180 once more, over exact rationals and with closed forms in
place of the wrap loops, for statements that compare the commands with them. -/

/-- The clamp of rule R16 as a minimum and a maximum. -/
def limit (x lo hi : Rat) : Rat := max lo (min x hi)

/-- Truncation toward zero (rule R140): the floor from 0 on, the ceiling below. -/
def truncExact (x : Rat) : Int := if 0 ≤ x then ⌊x⌋ else ⌈x⌉

/-- The sample of a REAL value: truncated, then limited to the sample range (rules R138, R141, R143). -/
def sampleExact (x : Rat) : Sample := BitVec.ofInt 16 (max (-32768) (min (truncExact x) 32767))

/-- What a read `d` ticks back gives (rule R113): the position modulo the capacity, then linear
interpolation towards the following word. -/
def tapValue (m : Memory) (cap widx : Nat) (d : Rat) : Rat :=
  let pos : Rat := cap * fracPart ((widx - d) / cap)
  let a : Rat := (Memory.readWord m pos.floor.toNat).toInt
  let b : Rat := (Memory.readWord m ((pos.floor.toNat + 1) % cap)).toInt
  a + fracPart pos * (b - a)

/-- The bipolar triangle (rule R126). -/
def triangleExact (p : Rat) : Rat := if p < 1 / 2 then 4 * p - 1 else 3 - 4 * p

/-- The unipolar triangle (rule R125). -/
def triangle01Exact (p : Rat) : Rat := if p < 1 / 2 then 2 * p else 2 - 2 * p

/-- The soft clip of rule R142, by the sign of its argument. -/
def softclipExact (c : Config) (x : Rat) : Rat :=
  if x < -c.satT then -(c.satT + (-x - c.satT) * c.satK)
  else if c.satT < x then c.satT + (x - c.satT) * c.satK else x

/-- Sample `n` of `PROC1` (rule R157). -/
def v1SampleExact (n : Nat) (s : State) : State :=
  let x := Memory.readWord s.blk0 n
  let w := s.inst0.widx.toNat
  let m := Memory.writeWord s.dly0 w x
  let tap := fun (p : Rat) => tapValue m s.inst0.cap.toNat w
    (limit (s.v1.base + triangleExact p * s.inst0.depth * s.cfg.v1ModRange)
      s.cfg.v1MinDelay (v1MaxDelayAt s.cfg s.inst0.cap.toNat))
  let wet := truncExact ((tap s.v1.phL + tap s.v1.phR) / 2)
  let out : Int := (x.toInt * s.v1.dry256.toNat + wet * s.v1.wet256.toNat) / 256
  { s with
    inst0 := { s.inst0 with widx := BitVec.ofNat 24 ((w + 1) % s.inst0.cap.toNat) }
    v1 := { s.v1 with phL := fracPart (s.v1.phL + s.inst0.phinc), phR := fracPart (s.v1.phR + s.inst0.phinc) }
    dly0 := m
    blk0 := Memory.writeWord s.blk0 n (BitVec.ofInt 16 out) }

/-- Sample `n` of `PROC2` on slot `c`, with the local phase (rule R180). -/
def v2SampleExact (c : Slot) (n : Nat) (x : State × Rat) : State × Rat :=
  let s := x.1
  let i := s.inst c
  let w := i.widx.toNat
  let pre : Rat := i.preY + s.cfg.aPre * ((Memory.readWord (s.blk c) n).toInt - i.preY)
  let m := Memory.writeWord (s.dly c) w (sampleExact pre)
  let pe := if i.isRight then fracPart (x.2 + 1 / 2) else x.2
  let v := if i.mode = .combined then limit (triangle01Exact pe + beatAt s.cfg pe) 0 1 else triangle01Exact pe
  let off := if i.isRight then s.cfg.v2RightOffset else 0
  let d := limit (i.minds + v * i.depth * (i.maxds - i.minds) + off) i.minds i.maxds
  let post := i.postY + s.cfg.aPost * (tapValue m i.cap.toNat w d - i.postY)
  (((s.setInst c { i with widx := BitVec.ofNat 24 ((w + 1) % i.cap.toNat), preY := pre, postY := post }).setDly
    c m).setBlk c (Memory.writeWord (s.blk c) n (sampleExact (softclipExact s.cfg post))), fracPart (x.2 + i.phinc))

/-! ## What the host owes (rules R241, R244) -/

/-- The line of an engine is long enough for its current mode: `CAP - 1 >= MAXDS` (rule R241). -/
def LineLongEnough (i : Inst) : Prop := i.maxds ≤ (i.cap.toNat : Rat) - 1

/-- Slot `c` takes part in a tick: initialised and not in pass-through (rule R244). -/
def TakesPart (s : State) (c : Slot) : Prop :=
  (s.inst c).inited = true ∧ passThrough (s.inst c) = false

/-- The pairing of rule R244: both engines take part, `l` is the primary and the other slot the right
channel, and the latch is between ticks. -/
structure Paired (s : State) (l r : Slot) : Prop where
  distinct  : l ≠ r
  left      : TakesPart s l
  right     : TakesPart s r
  primary   : (s.inst l).isRight = false
  secondary : (s.inst r).isRight = true
  between   : s.latch.valid = false

/-! ## Commands by what they address -/

/-- The slot that a command of variant 2 addresses; `SYNCPH` and `GETPH` address the latch (rule R84). -/
def addressedSlot : Instr → Option Slot
  | .init2 ch _ _ _ => some ch
  | .proc2 ch _ => some ch
  | .setrate2 ch _ => some ch
  | .setdepth2 ch _ => some ch
  | .setmode ch _ => some ch
  | .setbyp2 ch _ => some ch
  | .getlen2 ch => some ch
  | .init1 _ _ _ => none
  | .proc1 _ => none
  | .setrate1 _ => none
  | .setdepth1 _ => none
  | .setmix _ => none
  | .setbyp1 _ => none
  | .getlen1 => none
  | .syncph _ => none
  | .getph => none

/-- `INIT` and `PROC`, the commands that access memory (rule R71). -/
def accessesMemory : Instr → Bool
  | .init1 _ _ _ => true
  | .init2 _ _ _ _ => true
  | .proc1 _ => true
  | .proc2 _ _ => true
  | .setrate1 _ => false
  | .setrate2 _ _ => false
  | .setdepth1 _ => false
  | .setdepth2 _ _ => false
  | .setmix _ => false
  | .setmode _ _ => false
  | .setbyp1 _ => false
  | .setbyp2 _ _ => false
  | .getlen1 => false
  | .getlen2 _ => false
  | .syncph _ => false
  | .getph => false

/-- `s` with other contents in its four memory spaces. -/
def State.withMemory (s : State) (d0 d1 b0 b1 : Memory) : State :=
  { s with dly0 := d0, dly1 := d1, blk0 := b0, blk1 := b1 }

/-- `s` with other registers and other memory in slot `c`. -/
def State.withPartner (s : State) (c : Slot) (i : Inst) (d b : Memory) : State :=
  ((s.setInst c i).setDly c d).setBlk c b

/-- One sample the host places: slot, word index, value (rule R73). -/
abbrev Placement := Slot × Nat × Sample

/-- What the host does in one tick (rules R223, R244): one `PROC2` for each instance, in either order, each
with its input block or without, and before each command the samples the host places. -/
structure Tick where
  /-- Slot 1 first (`TICKR`), else slot 0 first (`TICK`) (rule R102). -/
  reversed : Bool
  /-- `IN_VALID` of the command to slot 0. -/
  in0      : Bool
  /-- `IN_VALID` of the command to slot 1. -/
  in1      : Bool
  /-- The samples placed before the first command. -/
  before   : List Placement
  /-- The samples placed between the two commands. -/
  between  : List Placement
deriving DecidableEq, Repr

/-- The placements of a tick name words of the block windows. -/
def Tick.Fits (k : Tick) (blockN : Nat) : Prop := ∀ p ∈ k.before ++ k.between, p.2.1 < blockN

/-- The word of `PROC2 0` (rules R89, R93). -/
def slot0Word (inValid : Bool) : Word64 := if inValid then 0x2000000000000001#64 else 0x2000000000000000#64

/-- The word of `PROC2 1` (rules R89, R93). -/
def slot1Word (inValid : Bool) : Word64 := if inValid then 0x2800000000000001#64 else 0x2800000000000000#64

/-- The moves of a tick. -/
def Tick.moves (k : Tick) : List HostMove :=
  let place := fun (p : Placement) => HostMove.putSample p.1 p.2.1 p.2.2
  let first := if k.reversed then slot1Word k.in1 else slot0Word k.in0
  let second := if k.reversed then slot0Word k.in0 else slot1Word k.in1
  k.before.map place ++ .command first :: (k.between.map place ++ [.command second])

/-- The response `(OK, 1, 0)` (rule R96). -/
def okWord : Word64 := 0x0000000100000000#64

/-- The response `(INIT_FAIL, 0, 0)` (rule R96). -/
def initFailWord : Word64 := 0x4000000000000000#64

/-- The response `(NOT_INIT, 0, 0)` (rule R96). -/
def notInitWord : Word64 := 0x8000000000000000#64

/-- The response `(ILLEGAL, 0, 0)` (rule R96). -/
def illegalWord : Word64 := 0xC000000000000000#64

/-- The response `(OK, 1, value)` (rule R96). -/
def valueWord (value : BitVec 32) : Word64 := 0x00000001#32 ++ value

end Sys2Proof.Machine
end

