-- ==== Sys2Proof/Certificates/Slice0/Obligations.lean ====
section
/-! DEFINITION. The statements for the provers. Each docstring names the rules it formalises; where a
clause rests on a choice of the model, it names the log entry. Every statement holds for every
configuration its hypotheses admit, the free functions of `Sys2Proof/Config.lean` included. -/

open Sys2Proof Sys2Proof.Machine

/-! ## Encoding -/

/-- Rule R100, which the spec marks derived: encoding is the inverse of decoding on every legal command,
with every operand. -/
def Obligations.DecodeOfEncode : Prop :=
  ∀ (v : Variant) (i : Instr), i.wellFormed v = true → decode v (encode i) = .ok i

/-- Rule R100, which the spec marks derived, the other direction: a word that decodes is the encoding of
what it decodes to, so no bit of a legal word is dropped. -/
def Obligations.EncodeOfDecode : Prop :=
  ∀ (v : Variant) (w : Word64) (i : Instr), decode v w = .ok i → i.wellFormed v = true ∧ encode i = w

/-- Rule R93: for a given variant at most one row matches a word, and a word is legal exactly when one
does. -/
def Obligations.AtMostOneRowMatches : Prop :=
  ∀ (v : Variant) (w : Word64),
    (∀ r ∈ rows, ∀ r' ∈ rows, r.variant = v → w &&& r.mask = r.pattern →
      r'.variant = v → w &&& r'.mask = r'.pattern → r = r') ∧
    ((∃ i, decode v w = .ok i) ↔ ∃ r ∈ rows, r.variant = v ∧ w &&& r.mask = r.pattern)

/-- Rule R94, the list of illegal words, read as complete: a word is legal exactly when none of the list's
cases holds of it. -/
def Obligations.LegalWordsAreThoseOutsideTheIllegalList : Prop :=
  ∀ (v : Variant) (w : Word64),
    (∃ i, decode v w = .ok i) ↔
      ¬ (w.extractLsb' 60 4 = 0x0 ∨ 0xB ≤ (w.extractLsb' 60 4).toNat ∨ w.extractLsb' 32 27 ≠ 0 ∨
        (w.getLsbD 59 = true ∧ (v = .v1 ∨ w.extractLsb' 60 4 = 0x9 ∨ w.extractLsb' 60 4 = 0xA)) ∨
        (w.extractLsb' 60 4 = 0x5 ∧ v = .v2) ∨
        ((w.extractLsb' 60 4 = 0x6 ∨ w.extractLsb' 60 4 = 0x9 ∨ w.extractLsb' 60 4 = 0xA) ∧ v = .v1) ∨
        (w.extractLsb' 60 4 = 0x1 ∧ v = .v1 ∧ w.extractLsb' 26 6 ≠ 0) ∨
        (w.extractLsb' 60 4 = 0x1 ∧ v = .v2 ∧ (w.getLsbD 25 = true ∨ w.extractLsb' 27 5 ≠ 0)) ∨
        (w.extractLsb' 60 4 = 0x2 ∧ w.extractLsb' 1 31 ≠ 0) ∨
        ((w.extractLsb' 60 4 = 0x8 ∨ w.extractLsb' 60 4 = 0xA) ∧ w.extractLsb' 0 32 ≠ 0))

/-- Rule R103, which the spec marks derived: the worked encodings, both ways, and its three illegal words.
-/
def Obligations.WorkedEncodings : Prop :=
  (encode (.setrate2 .s0 0x00008000) = 0x3000000000008000#64 ∧
    encode (.setrate1 0x00008000) = 0x3000000000008000#64) ∧
  decode .v1 0x5000000000010000#64 = .ok (.setmix 0x00010000) ∧
  decode .v2 0x6800000000000003#64 = .ok (.setmode .s1 3) ∧
  (decode .v2 0x60000000FFFFFFFF#64 = .ok (.setmode .s0 0xFFFFFFFF) ∧ modeOperand 0xFFFFFFFF = .off) ∧
  decode .v1 0x1000000003000100#64 = .ok (.init1 256 true true) ∧
  decode .v2 0x1800000005000040#64 = .ok (.init2 .s1 64 true true) ∧
  decode .v2 0x2800000000000001#64 = .ok (.proc2 .s1 true) ∧
  (decode .v1 0x8000000000000000#64 = .ok .getlen1 ∧ decode .v2 0x8000000000000000#64 = .ok (.getlen2 .s0)) ∧
  (decode .v2 0x9000000040000000#64 = .ok (.syncph 0x40000000) ∧ uq32 0x40000000 = 1 / 4) ∧
  (∀ v i, decode v 0x0000000000000000#64 ≠ .ok i) ∧
  (∀ v i, decode v 0x5800000000008000#64 ≠ .ok i) ∧
  (∀ v i, decode v 0x8000000000000001#64 ≠ .ok i)

/-! ## One step -/

/-- Rules R80, R219: a step runs the command at the port, taken from it. The word at the port need only
decode; nothing else is added around `exec`. -/
def Obligations.StepRunsDecodedCommand : Prop :=
  ∀ (s : State) (w : Word64) (rest : List HostMove) (i : Instr),
    s.input = .command w :: rest → decode s.cfg.variant w = .ok i →
    step s = exec i { s with input := rest }

/-- Rule R94: a word that decodes to nothing changes no state and no memory and is answered ILLEGAL. -/
def Obligations.IllegalWordChangesNothing : Prop :=
  ∀ (s : State) (w : Word64) (rest : List HostMove),
    s.input = .command w :: rest → (∀ i, decode s.cfg.variant w ≠ .ok i) →
    step s = .next { s with input := rest, resp := some illegalWord }

/-- `exec` of a constructor of the other variant changes nothing and is answered ILLEGAL. Rule R94 says this
of words; that `exec` says it again of constructors, those that no word decodes to on this device included,
is the model's choice (log entry 14). -/
def Obligations.OtherVariantsCommandIsIllegal : Prop :=
  ∀ (s : State) (i : Instr), i.wellFormed s.cfg.variant = false →
    exec i s = .next { s with resp := some illegalWord }

/-- Rules R229, R232: whenever the host has made no move the device is idle with all state held; so it is
after reset, which produces no response, whatever the configuration and the memory. -/
def Obligations.IdleAfterReset : Prop :=
  (∀ s : State, s.input = [] → step s = .next s) ∧
  ∀ (c : Config) (d0 d1 b0 b1 : Memory),
    let s := State.resetWith c d0 d1 b0 b1
    s.input = [] ∧ step s = .next s ∧ s.resp = none

/-- Rules R60, R73: the host places one sample in a block window that exists; it reads back, and nothing
else changes. The move itself is the model's form of the host's access (log entry 6). -/
def Obligations.HostPlacesOneSample : Prop :=
  ∀ (s : State) (c : Slot) (n : Nat) (v : Sample) (rest : List HostMove),
    s.input = .putSample c n v :: rest → Memory.wf (s.blk c) = true →
    n < s.cfg.blockN → (c = .s0 ∨ s.cfg.variant = .v2) →
    ∃ t, step s = .next t ∧
      t = { s with input := rest, blk0 := t.blk0, blk1 := t.blk1 } ∧
      Memory.readWord (t.blk c) n = v ∧
      (∀ a, a / 2 ≠ n → Memory.readByte (t.blk c) a = Memory.readByte (s.blk c) a) ∧
      (∀ d a, d ≠ c → Memory.readByte (t.blk d) a = Memory.readByte (s.blk d) a)

/-- Rules R22, R231: the configuration is not state; no step changes it. -/
def Obligations.StepKeepsConfiguration : Prop :=
  ∀ s t : State, step s = .next t → t.cfg = s.cfg

/-- Rule R96: every command that completes returns a response whose bits 61:33 are zero, and whose `FLAG`
and `VALUE` are zero unless the status is OK. -/
def Obligations.EveryCommandReturnsAResponse : Prop :=
  ∀ (i : Instr) (s t : State), exec i s = .next t →
    ∃ w : Word64, t.resp = some w ∧ w.extractLsb' 33 29 = 0 ∧
      (w.extractLsb' 62 2 ≠ 0 → w.extractLsb' 0 33 = 0)

/-- Rule R220, which the spec marks derived: a command that ends with a nonzero status has written
nothing. -/
def Obligations.FailedCommandWritesNothing : Prop :=
  ∀ (i : Instr) (s t : State) (w : Word64), exec i s = .next t → t.resp = some w →
    w.extractLsb' 62 2 ≠ 0 → t = { s with resp := some w }

/-- Rule R71, which the spec marks derived: a command other than `INIT` and `PROC` neither writes nor
reads memory: with other contents in the four spaces it does exactly the same and leaves those contents
alone. -/
def Obligations.OnlyInitAndProcAccessMemory : Prop :=
  ∀ (i : Instr) (s t : State) (d0 d1 b0 b1 : Memory), accessesMemory i = false → exec i s = .next t →
    exec i (s.withMemory d0 d1 b0 b1) = .next (t.withMemory d0 d1 b0 b1) ∧
    (∀ c a, Memory.readByte (t.dly c) a = Memory.readByte (s.dly c) a) ∧
    (∀ c a, Memory.readByte (t.blk c) a = Memory.readByte (s.blk c) a)

/-! ## Reset -/

/-- Rules R49, R231: every register after reset has the value of the reset column, in any configuration,
whatever memory holds. -/
def Obligations.ResetValues : Prop :=
  ∀ (c : Config) (d0 d1 b0 b1 : Memory),
    let s := State.resetWith c d0 d1 b0 b1
    (∀ k, (s.inst k).inited = false ∧ (s.inst k).cap = 0 ∧ (s.inst k).widx = 0 ∧ (s.inst k).rate = 1 / 2 ∧
      (s.inst k).phinc = roundReal c ((1 / 2) / c.fsHz) ∧ (s.inst k).depth = 1 ∧ (s.inst k).bypass = false ∧
      (s.inst k).isRight = false ∧ (s.inst k).mode = .off ∧ (s.inst k).minds = 0 ∧ (s.inst k).maxds = 0 ∧
      (s.inst k).preY = 0 ∧ (s.inst k).postY = 0) ∧
    s.v1 = { mix := 1 / 2, wet256 := 128, dry256 := 128, base := c.v1BaseDelay, phL := 0, phR := 1 / 4 } ∧
    s.latch = { phase := 0, valid := false, start := 0, endPh := 0, ready := false, count := 0 } ∧
    s.cfg = c

/-! ## Variant 1 -/

/-- Rule R152: a successful `INIT1` zeroes the first `LEN` words of both delay spaces, writes the six
registers of the rule, and leaves everything else. -/
def Obligations.Init1Succeeds : Prop :=
  ∀ (s : State) (len : BitVec 24), s.cfg.variant = .v1 → 10 ≤ len.toNat →
    ∃ t, exec (.init1 len true true) s = .next t ∧
      t = { s with
        inst0 := { s.inst0 with inited := true, cap := len, widx := 0 }
        v1 := { s.v1 with base := s.cfg.v1BaseDelay, phL := 0, phR := 1 / 4 }
        dly0 := t.dly0
        dly1 := t.dly1
        resp := some okWord } ∧
      (∀ c i, i < len.toNat → Memory.readWord (t.dly c) i = 0) ∧
      (∀ c a, 2 * len.toNat ≤ a → Memory.readByte (t.dly c) a = Memory.readByte (s.dly c) a)

/-- Rules R151, R171: `INIT` with a missing buffer or a length below its variant's minimum answers
INIT_FAIL and changes nothing. -/
def Obligations.InitFails : Prop :=
  ∀ (s : State) (ch : Slot) (len : BitVec 24) (p0 p1 right : Bool),
    (s.cfg.variant = .v1 → (p0 = false ∨ p1 = false ∨ len.toNat < 10) →
      exec (.init1 len p0 p1) s = .next { s with resp := some initFailWord }) ∧
    (s.cfg.variant = .v2 → (p0 = false ∨ len.toNat < 32) →
      exec (.init2 ch len p0 right) s = .next { s with resp := some initFailWord })

/-- Rules R155, R177: `PROC` on an uninitialised instance answers NOT_INIT and writes nothing: no
register, no latch register and no memory, not even the block window. -/
def Obligations.ProcUninitialised : Prop :=
  ∀ (s : State) (ch : Slot) (inValid : Bool),
    (s.cfg.variant = .v1 → s.inst0.inited = false →
      exec (.proc1 inValid) s = .next { s with resp := some notInitWord }) ∧
    (s.cfg.variant = .v2 → (s.inst ch).inited = false →
      exec (.proc2 ch inValid) s = .next { s with resp := some notInitWord })

/-- Rule R159: a bypassed `PROC1` leaves every register, the delay spaces and the block; with no input
block the block window becomes zeros (rule R156). -/
def Obligations.Proc1Bypassed : Prop :=
  ∀ (s : State) (inValid : Bool), s.cfg.variant = .v1 → s.inst0.inited = true → s.inst0.bypass = true →
    ∃ t, exec (.proc1 inValid) s = .next t ∧
      t = { s with blk0 := t.blk0, resp := some okWord } ∧
      (inValid = true → ∀ a, Memory.readByte t.blk0 a = Memory.readByte s.blk0 a) ∧
      (inValid = false →
        (∀ i, i < s.cfg.blockN → Memory.readWord t.blk0 i = 0) ∧
        (∀ a, 2 * s.cfg.blockN ≤ a → Memory.readByte t.blk0 a = Memory.readByte s.blk0 a))

/-- Rules R154, R157: in every well-formed state an active `PROC1` completes, under every admissible
rounding; it advances the index once per sample, keeps the phases canonical, and changes only `WIDX`, the
two phases, the words of `DLY0` at the indices it stored to and the words of the block. -/
def Obligations.Proc1Completes : Prop :=
  ∀ (s : State) (inValid : Bool), StateOk s → s.cfg.variant = .v1 → s.inst0.inited = true →
    s.inst0.bypass = false →
    ∃ t, exec (.proc1 inValid) s = .next t ∧
      t = { s with
        inst0 := { s.inst0 with widx := t.inst0.widx }
        v1 := { s.v1 with phL := t.v1.phL, phR := t.v1.phR }
        dly0 := t.dly0
        blk0 := t.blk0
        resp := some okWord } ∧
      t.inst0.widx.toNat = (s.inst0.widx.toNat + s.cfg.blockN) % s.inst0.cap.toNat ∧
      IsPhase t.v1.phL ∧ IsPhase t.v1.phR ∧
      (∀ a, (∀ n < s.cfg.blockN, a / 2 ≠ (s.inst0.widx.toNat + n) % s.inst0.cap.toNat) →
        Memory.readByte t.dly0 a = Memory.readByte s.dly0 a) ∧
      (∀ a, 2 * s.cfg.blockN ≤ a → Memory.readByte t.blk0 a = Memory.readByte s.blk0 a)

/-- Rules R154, R157: in exact arithmetic an active `PROC1` is the recurrence of rule R157, sample by
sample in ascending order, on the block as rule R156 prepares it; the sample is written out in
`v1SampleExact` with no wrap loop. -/
def Obligations.Proc1ComputesTheRecurrence : Prop :=
  ∀ (s : State) (inValid : Bool), StateOk s → s.cfg.rounding = .exact → s.cfg.variant = .v1 →
    s.inst0.inited = true → s.inst0.bypass = false →
    exec (.proc1 inValid) s = .next
      (((List.range s.cfg.blockN).foldl (fun t n => v1SampleExact n t) (substituteSilence .s0 inValid s)).setResp
        okWord)

/-- Rules R157, R122: what an active `PROC1` leaves in the delay line and the phases, in exact arithmetic:
the input samples at the indices from `WIDX` on (the last `CAP` of them where the block is longer than the
line), and each phase one increment further per sample. -/
def Obligations.Proc1StoresItsInput : Prop :=
  ∀ (s t : State) (inValid : Bool), StateOk s → s.cfg.rounding = .exact → s.cfg.variant = .v1 →
    s.inst0.inited = true → s.inst0.bypass = false → exec (.proc1 inValid) s = .next t →
    (∀ n, n < s.cfg.blockN → s.cfg.blockN ≤ n + s.inst0.cap.toNat →
      Memory.readWord t.dly0 ((s.inst0.widx.toNat + n) % s.inst0.cap.toNat) =
        if inValid then Memory.readWord s.blk0 n else 0) ∧
    t.v1.phL = fracPart (s.v1.phL + s.cfg.blockN * s.inst0.phinc) ∧
    t.v1.phR = fracPart (s.v1.phR + s.cfg.blockN * s.inst0.phinc)

/-- Rule R160, whose formula the spec marks derived: with depth 0 and an integer base delay `B` inside the
clamp band, output sample `n` is the fixed-point mix of the input sample `n` and the sample `B` ticks
earlier: input sample `n - B` of the block, or for `n < B` the word stored `B - n` ticks before the block.
-/
def Obligations.DelayReadBack : Prop :=
  ∀ (s t : State) (inValid : Bool) (b : Nat), StateOk s → s.cfg.rounding = .exact → s.cfg.variant = .v1 →
    s.inst0.inited = true → s.inst0.bypass = false → s.inst0.depth = 0 → s.v1.base = b →
    s.cfg.v1MinDelay ≤ (b : Rat) → (b : Rat) ≤ v1MaxDelayAt s.cfg s.inst0.cap.toNat →
    exec (.proc1 inValid) s = .next t →
    ∀ n, n < s.cfg.blockN →
      let x := fun k => if inValid then Memory.readWord s.blk0 k else 0
      let wet := if b ≤ n then x (n - b)
        else Memory.readWord s.dly0 ((s.inst0.widx.toNat + n + s.inst0.cap.toNat - b) % s.inst0.cap.toNat)
      ((Memory.readWord t.blk0 n).toInt : Int) =
        ((x n).toInt * s.v1.dry256.toNat + wet.toInt * s.v1.wet256.toNat) / 256

/-- Rule R162: `SETRATE` in variant 1 stores the operand clamped to [1/10, 5], and the increment. -/
def Obligations.SetRateV1 : Prop :=
  ∀ (s : State) (q : Operand), s.cfg.variant = .v1 →
    ∃ r : Rat, ((q.toInt : Rat) / 65536 < 1 / 10 → r = 1 / 10) ∧ (5 < (q.toInt : Rat) / 65536 → r = 5) ∧
      (1 / 10 ≤ (q.toInt : Rat) / 65536 → (q.toInt : Rat) / 65536 ≤ 5 → r = (q.toInt : Rat) / 65536) ∧
      exec (.setrate1 q) s = .next { s with
        inst0 := { s.inst0 with rate := r, phinc := roundReal s.cfg (r / s.cfg.fsHz) }
        resp := some okWord }

/-- Rules R163, R185: `SETDEPTH` stores the operand clamped to [0, 1], in either variant. -/
def Obligations.SetDepth : Prop :=
  ∀ (s : State) (ch : Slot) (q : Operand),
    ∃ u : Rat, ((q.toInt : Rat) / 65536 < 0 → u = 0) ∧ (1 < (q.toInt : Rat) / 65536 → u = 1) ∧
      (0 ≤ (q.toInt : Rat) / 65536 → (q.toInt : Rat) / 65536 ≤ 1 → u = (q.toInt : Rat) / 65536) ∧
      (s.cfg.variant = .v1 →
        exec (.setdepth1 q) s = .next { s with inst0 := { s.inst0 with depth := u }, resp := some okWord }) ∧
      (s.cfg.variant = .v2 →
        exec (.setdepth2 ch q) s = .next ((s.setInst ch { s.inst ch with depth := u }).setResp okWord))

/-- Rules R164, R144, R32: `SETMIX` stores the operand clamped to [0, 1] and the two weights, which sum to
256. `WET256` is `m * 256` rounded half up (the value is not negative), exactly, wherever the product is
representable, that is, wherever `NUM.rnd` leaves it as it is (`93_implementation_defined.md` U8), so in
exact arithmetic always. Elsewhere the product is rounded by `NUM.rnd` and the conversion is not: that is
the model's reading of rule R14 (log entry 3). -/
def Obligations.SetMix : Prop :=
  ∀ (s : State) (q : Operand), s.cfg.variant = .v1 →
    ∃ (m : Rat) (wet dry : BitVec 9), ((q.toInt : Rat) / 65536 < 0 → m = 0) ∧ (1 < (q.toInt : Rat) / 65536 → m = 1) ∧
      (0 ≤ (q.toInt : Rat) / 65536 → (q.toInt : Rat) / 65536 ≤ 1 → m = (q.toInt : Rat) / 65536) ∧
      wet.toNat + dry.toNat = 256 ∧
      (roundReal s.cfg (m * 256) = m * 256 → (wet.toNat : Int) = ⌊m * 256 + 1 / 2⌋) ∧
      (RoundingAdmissible s.cfg → (wet.toNat : Int) = ⌊roundReal s.cfg (m * 256) + 1 / 2⌋) ∧
      (s.cfg.rounding = .exact → (wet.toNat : Int) = ⌊m * 256 + 1 / 2⌋) ∧
      exec (.setmix q) s = .next { s with
        v1 := { s.v1 with mix := m, wet256 := wet, dry256 := dry }
        resp := some okWord }

/-- Rules R165, R187, R91: `SETBYP` stores whether the operand is nonzero, in either variant. -/
def Obligations.SetBypass : Prop :=
  ∀ (s : State) (ch : Slot) (b : Operand),
    ∃ v : Bool, (v = true ↔ b ≠ 0) ∧
      (s.cfg.variant = .v1 →
        exec (.setbyp1 b) s = .next { s with inst0 := { s.inst0 with bypass := v }, resp := some okWord }) ∧
      (s.cfg.variant = .v2 →
        exec (.setbyp2 ch b) s = .next ((s.setInst ch { s.inst ch with bypass := v }).setResp okWord))

/-- Rules R166, R188: `GETLEN` returns `CAP` and changes no state, in either variant. -/
def Obligations.GetLen : Prop :=
  ∀ (s : State) (ch : Slot),
    (s.cfg.variant = .v1 →
      exec .getlen1 s = .next { s with resp := some (valueWord (0#8 ++ s.inst0.cap)) }) ∧
    (s.cfg.variant = .v2 →
      exec (.getlen2 ch) s = .next { s with resp := some (valueWord (0#8 ++ (s.inst ch).cap)) })

/-- Rule R127, which the spec marks derived: in exact arithmetic every step keeps the right phase a
quarter cycle ahead of the left one; `INIT1` and reset establish it. -/
def Obligations.QuadratureIsKept : Prop :=
  (∀ s t : State, s.cfg.rounding = .exact → s.v1.phR = fracPart (s.v1.phL + 1 / 4) → step s = .next t →
    t.v1.phR = fracPart (t.v1.phL + 1 / 4)) ∧
  (∀ c d0 d1 b0 b1, let s := State.resetWith c d0 d1 b0 b1
    s.v1.phR = fracPart (s.v1.phL + 1 / 4))

/-! ## Variant 2 -/

/-- Rule R172: a successful `INIT2` zeroes the first `LEN` words of its own delay space, writes the six
registers of the rule, and leaves everything else, the latch and the parameters included. -/
def Obligations.Init2Succeeds : Prop :=
  ∀ (s : State) (ch : Slot) (len : BitVec 24) (right : Bool), s.cfg.variant = .v2 → 32 ≤ len.toNat →
    ∃ m, exec (.init2 ch len true right) s = .next
        (((s.setInst ch
          { s.inst ch with inited := true, cap := len, widx := 0, isRight := right, preY := 0, postY := 0 }).setDly
          ch m).setResp okWord) ∧
      (∀ i, i < len.toNat → Memory.readWord m i = 0) ∧
      (∀ a, 2 * len.toNat ≤ a → Memory.readByte m a = Memory.readByte (s.dly ch) a)

/-- Rules R175, R179, R182: a pass-through `PROC2` changes only the block window, zero-filled if the input
is missing, and, where `BYPASS_TOUCHES_LATCH` is true, the latch. Of the latch every register is said, by
rules R196 and R198 with `publish = 0`: the first of a tick opens it with `COUNT` 1; where the latch was
open it counts, and at 2 it invalidates the latch, committing only an `END` that the primary has made
ready (last sentence of rule R202). -/
def Obligations.Proc2PassesThrough : Prop :=
  ∀ (s : State) (ch : Slot) (inValid : Bool), s.cfg.variant = .v2 → (s.inst ch).inited = true →
    ((s.inst ch).bypass = true ∨ (s.inst ch).mode = .off) →
    ∃ (m : Memory) (l : Latch), exec (.proc2 ch inValid) s = .next (((s.setBlk ch m).setLatch l).setResp okWord) ∧
      (inValid = true → ∀ a, Memory.readByte m a = Memory.readByte (s.blk ch) a) ∧
      (inValid = false →
        (∀ i, i < s.cfg.blockN → Memory.readWord m i = 0) ∧
        (∀ a, 2 * s.cfg.blockN ≤ a → Memory.readByte m a = Memory.readByte (s.blk ch) a)) ∧
      (s.cfg.bypassTouchesLatch = false → l = s.latch) ∧
      (s.cfg.bypassTouchesLatch = true →
        l.endPh = s.latch.endPh ∧ (l.phase = s.latch.phase ∨ l.phase = s.latch.endPh) ∧
        (s.latch.valid = false → l = { s.latch with valid := true, start := s.latch.phase, count := 1, ready := false }) ∧
        (s.latch.valid = true → s.latch.count = 0 → l = { s.latch with count := 1 }) ∧
        (s.latch.valid = true → s.latch.count ≠ 0 → s.latch.ready = false →
          l = { s.latch with valid := false, count := 0 }) ∧
        (s.latch.valid = true → s.latch.count ≠ 0 → s.latch.ready = true →
          l = { s.latch with phase := s.latch.endPh, valid := false, count := 0, ready := false }))

/-- Rules R176, R180: in every well-formed state an active `PROC2` completes, where its line is long
enough (rule R241) or arithmetic is exact; it advances the index once per sample and changes only `WIDX`,
the two filter states, the latch, the words of its delay space at the indices it stored to and the words
of its block. -/
def Obligations.Proc2Completes : Prop :=
  ∀ (s : State) (ch : Slot) (inValid : Bool), StateOk s → s.cfg.variant = .v2 → TakesPart s ch →
    (LineLongEnough (s.inst ch) ∨ s.cfg.rounding = .exact) →
    ∃ (w : BitVec 24) (pre post : Rat) (l : Latch) (d b : Memory),
      exec (.proc2 ch inValid) s = .next (((((s.setInst ch
        { s.inst ch with widx := w, preY := pre, postY := post }).setLatch l).setDly ch d).setBlk ch b).setResp okWord) ∧
      w.toNat = ((s.inst ch).widx.toNat + s.cfg.blockN) % (s.inst ch).cap.toNat ∧
      LatchOk l ∧
      (∀ a, (∀ n < s.cfg.blockN, a / 2 ≠ ((s.inst ch).widx.toNat + n) % (s.inst ch).cap.toNat) →
        Memory.readByte d a = Memory.readByte (s.dly ch) a) ∧
      (∀ a, 2 * s.cfg.blockN ≤ a → Memory.readByte b a = Memory.readByte (s.blk ch) a)

/-- Rules R176, R180: in exact arithmetic an active `PROC2` opens the tick, is the recurrence of rule R180
sample by sample from the latched phase, and closes its part of the tick, publishing the local phase; the
sample is written out in `v2SampleExact` with no wrap loop. For a line shorter than the mode needs (rule
R241) the output claimed is the model's choice, what rule R113 computes (log entry 12): U1 gives it no
meaning. -/
def Obligations.Proc2ComputesTheRecurrence : Prop :=
  ∀ (s : State) (ch : Slot) (inValid : Bool), StateOk s → s.cfg.rounding = .exact → s.cfg.variant = .v2 →
    TakesPart s ch →
    let l := latchBegin s.latch
    let x := (List.range s.cfg.blockN).foldl (fun y n => v2SampleExact ch n y)
      ((substituteSilence ch inValid s).setLatch l, l.start)
    exec (.proc2 ch inValid) s = .next ((x.1.setLatch (latchEnd (s.inst ch).isRight true x.2 l)).setResp okWord)

/-- Rule R184: `SETRATE` in variant 2 stores the operand clamped to the configured range, and the
increment. -/
def Obligations.SetRateV2 : Prop :=
  ∀ (s : State) (ch : Slot) (q : Operand), s.cfg.variant = .v2 → s.cfg.v2RateMin ≤ s.cfg.v2RateMax →
    ∃ r : Rat, ((q.toInt : Rat) / 65536 < s.cfg.v2RateMin → r = s.cfg.v2RateMin) ∧
      (s.cfg.v2RateMax < (q.toInt : Rat) / 65536 → r = s.cfg.v2RateMax) ∧
      (s.cfg.v2RateMin ≤ (q.toInt : Rat) / 65536 → (q.toInt : Rat) / 65536 ≤ s.cfg.v2RateMax →
        r = (q.toInt : Rat) / 65536) ∧
      exec (.setrate2 ch q) s = .next ((s.setInst ch
        { s.inst ch with rate := r, phinc := roundReal s.cfg (r / s.cfg.fsHz) }).setResp okWord)

/-- Rule R186: `SETMODE` clamps the mode into [0, 3]; mode 0 writes `MODE` alone, modes 1 to 3 load rate,
increment, depth and delay range from their table row. -/
def Obligations.SetModeLoadsTheTables : Prop :=
  ∀ (s : State) (ch : Slot) (m : Operand), s.cfg.variant = .v2 →
    (m.toInt ≤ 0 →
      exec (.setmode ch m) s = .next ((s.setInst ch { s.inst ch with mode := .off }).setResp okWord)) ∧
    (∀ (mode : Mode) (row : ModeRow),
      (m.toInt = 1 ∧ mode = .modeA ∧ row = s.cfg.mode1 ∨ m.toInt = 2 ∧ mode = .modeB ∧ row = s.cfg.mode2 ∨
        3 ≤ m.toInt ∧ mode = .combined ∧ row = s.cfg.mode3) →
      ModeRowAdmissible s.cfg row →
      exec (.setmode ch m) s = .next ((s.setInst ch
        { s.inst ch with
          mode := mode
          rate := row.rate
          phinc := roundReal s.cfg (row.rate / s.cfg.fsHz)
          depth := row.depth
          minds := roundReal s.cfg (row.minS * s.cfg.fsHz)
          maxds := roundReal s.cfg (row.maxS * s.cfg.fsHz) }).setResp okWord))

/-- Rules R178, R224: a command addressed to one slot writes nothing of the other slot. -/
def Obligations.PartnerIsNotWritten : Prop :=
  ∀ (i : Instr) (s t : State) (c d : Slot), addressedSlot i = some c → d ≠ c → exec i s = .next t →
    t.inst d = s.inst d ∧
    (∀ a, Memory.readByte (t.dly d) a = Memory.readByte (s.dly d) a) ∧
    (∀ a, Memory.readByte (t.blk d) a = Memory.readByte (s.blk d) a)

/-- Rules R178 (marked derived) and R224: nor does it read anything of the other slot: with other
registers and other memory there, it answers the same. -/
def Obligations.PartnerIsNotRead : Prop :=
  ∀ (i : Instr) (s : State) (c d : Slot) (p : Inst) (m b : Memory), addressedSlot i = some c → d ≠ c →
    (∀ t, exec i s = .next t → exec i (s.withPartner d p m b) = .next (t.withPartner d p m b)) ∧
    (∀ f, exec i s = .fault f → exec i (s.withPartner d p m b) = .fault f)

/-! ## The latch -/

/-- Rule R199: nothing but `PROC2` and `SYNCPH` writes a latch register, `SYNCPH` writes `PHASE` alone,
and a `PROC2` that changes `PHASE` is one that commits: it leaves the latch invalid with `PHASE` equal to
`END`. -/
def Obligations.LatchWriters : Prop :=
  ∀ (i : Instr) (s t : State), exec i s = .next t → t.latch ≠ s.latch →
    (∃ p, i = .syncph p ∧ t.latch = { s.latch with phase := t.latch.phase }) ∨
    (∃ c inValid, i = .proc2 c inValid ∧
      (t.latch.phase ≠ s.latch.phase →
        t.latch.valid = false ∧ t.latch.count = 0 ∧ t.latch.ready = false ∧ t.latch.phase = t.latch.endPh))

/-- Rule R203: `SYNCPH` writes `LATCH.PHASE` alone. -/
def Obligations.SyncPhaseWritesThePhase : Prop :=
  ∀ (s : State) (p : Operand), s.cfg.variant = .v2 →
    exec (.syncph p) s = .next { s with
      latch := { s.latch with phase := (p.toNat : Rat) / 4294967296 }
      resp := some okWord }

/-- Rule R204: `GETPH` returns the shared phase truncated to 32 fractional bits and changes no state;
after a `SYNCPH` it returns that operand. That the truncation is exact under every rounding is the model's
reading of the rule (log entry 11). -/
def Obligations.GetPhaseReturnsThePhase : Prop :=
  ∀ (s : State), s.cfg.variant = .v2 →
    (IsPhase s.latch.phase →
      ∃ v : BitVec 32, (v.toNat : Int) = ⌊s.latch.phase * 4294967296⌋ ∧
        exec .getph s = .next { s with resp := some (valueWord v) }) ∧
    (∀ p t, exec (.syncph p) s = .next t → exec .getph t = .next { t with resp := some (valueWord p) })

/-- Rule R200, which the spec marks derived: a normal tick, in either order: from `LATCH.PHASE = P` it
ends at `P` advanced by one block of the primary's increments, and the latch is ready for the next tick.
In exact arithmetic. -/
def Obligations.NormalTickAdvancesOneBlock : Prop :=
  ∀ (s : State) (l r first second : Slot) (a b : Bool), StateOk s → s.cfg.rounding = .exact →
    s.cfg.variant = .v2 → Paired s l r → (first = l ∧ second = r ∨ first = r ∧ second = l) →
    ∃ t u, exec (.proc2 first a) s = .next t ∧ exec (.proc2 second b) t = .next u ∧
      u.latch = {
        phase := fracPart (s.latch.phase + s.cfg.blockN * (s.inst l).phinc)
        valid := false
        start := s.latch.phase
        endPh := fracPart (s.latch.phase + s.cfg.blockN * (s.inst l).phinc)
        ready := false
        count := 0 }

/-- Rule R200, which the spec marks derived: the result of a normal tick is the same for both orders, in
every register, every memory space and the response. In exact arithmetic. -/
def Obligations.TickOrderDoesNotMatter : Prop :=
  ∀ (s : State) (l r : Slot) (a b : Bool), StateOk s → s.cfg.rounding = .exact →
    s.cfg.variant = .v2 → Paired s l r →
    ∃ t t' u, exec (.proc2 l a) s = .next t ∧ exec (.proc2 r b) t = .next u ∧
      exec (.proc2 r b) s = .next t' ∧ exec (.proc2 l a) t' = .next u

/-- Rule R201: over `N` ticks, each in either order and with or without each input block, the cumulative
advance of the shared phase is exactly `N * BLOCK_N * PHINC` of the primary, modulo one cycle. The run is
of the machine's own steps, from the command words, with any samples the host places in the block windows
before each command. In exact arithmetic. -/
def Obligations.PhaseConservation : Prop :=
  ∀ (s : State) (l r : Slot) (ticks : List Tick), StateOk s → s.cfg.rounding = .exact →
    s.cfg.variant = .v2 → Paired s l r → (∀ k ∈ ticks, k.Fits s.cfg.blockN) → s.input = ticks.flatMap Tick.moves →
    ∃ u : State, Host.Core.run Sys2Proof.core s.input.length s = .next u ∧
      u.input = [] ∧ u.latch.valid = false ∧
      u.latch.phase = fracPart (s.latch.phase + ticks.length * (s.cfg.blockN * (s.inst l).phinc))

/-- Rule R202, which the spec marks derived, its first two cases: the right instance alone never moves the
shared phase, and the primary alone advances it by one block in two ticks. In exact arithmetic. -/
def Obligations.SoloInstances : Prop :=
  ∀ (s : State) (c : Slot) (a b : Bool), StateOk s → s.cfg.rounding = .exact → s.cfg.variant = .v2 →
    TakesPart s c → s.latch.valid = false →
    ∃ t u, exec (.proc2 c a) s = .next t ∧ exec (.proc2 c b) t = .next u ∧
      t.latch.valid = true ∧ t.latch.count = 1 ∧ t.latch.phase = s.latch.phase ∧
      u.latch.valid = false ∧ u.latch.count = 0 ∧ u.latch.ready = false ∧
      u.latch.phase = if (s.inst c).isRight then s.latch.phase
        else fracPart (s.latch.phase + s.cfg.blockN * (s.inst c).phinc)

/-! ## The datapath -/

/-- Rules R114, R117, which the spec marks derived: at an integer delay inside the safe band the
fractional read returns the word stored that many ticks earlier, exactly, under every admissible rounding.
-/
def Obligations.IntegerDelayReadsTheStoredWord : Prop :=
  ∀ (s : State) (c : Slot) (d : Nat), RoundingAdmissible s.cfg →
    (s.inst c).widx.toNat < (s.inst c).cap.toNat → d < (s.inst c).cap.toNat →
    dlReadI c d s = .ok
      ((Memory.readWord (s.dly c)
        (((s.inst c).widx.toNat + (s.inst c).cap.toNat - d) % (s.inst c).cap.toNat)).toInt : Rat)

/-- Rules R113 and R114 (marked derived): at a delay `k + f` with `0 < f < 1` inside the safe band the
read interpolates between the word stored `k + 1` ticks earlier and the one stored `k` ticks earlier. In
exact arithmetic. -/
def Obligations.FractionalDelayInterpolates : Prop :=
  ∀ (s : State) (c : Slot) (k : Nat) (f : Rat), s.cfg.rounding = .exact →
    (s.inst c).widx.toNat < (s.inst c).cap.toNat → k + 1 < (s.inst c).cap.toNat → 0 < f → f < 1 →
    let word := fun j => ((Memory.readWord (s.dly c)
      (((s.inst c).widx.toNat + (s.inst c).cap.toNat - j) % (s.inst c).cap.toNat)).toInt : Rat)
    dlReadI c (k + f) s = .ok (word (k + 1) + (1 - f) * (word k - word (k + 1)))

/-- Rule R118: in exact arithmetic every result of the fractional read lies in the sample range, for every
delay, inside the band or not. -/
def Obligations.ReadStaysInSampleRange : Prop :=
  ∀ (s : State) (c : Slot) (d : Rat), s.cfg.rounding = .exact →
    (s.inst c).widx.toNat < (s.inst c).cap.toNat →
    ∃ r, dlReadI c d s = .ok r ∧ -32768 ≤ r ∧ r ≤ 32767

/-- Rule R121: `LFO.WRAP` is total and answers the value in [0, 1) that differs from its argument by a
whole number of cycles. In exact arithmetic. -/
def Obligations.WrapIsCanonical : Prop :=
  ∀ (c : Config) (p : Rat), c.rounding = .exact →
    ∃ (q : Rat) (k : Int), lfoWrap c p = .ok q ∧ IsPhase q ∧ q = p + k

/-- Rule R124, which the spec marks derived: if `k * PHINC = 1` then `k` applications of `LFO.ADVANCE` are
the identity on [0, 1). In exact arithmetic. -/
def Obligations.FullPeriodIsIdentity : Prop :=
  ∀ (c : Config) (p inc : Rat) (k : Nat), c.rounding = .exact → IsPhase p → k * inc = 1 →
    forSamples (fun _ q => lfoAdvance c q inc) k p = .ok p

/-- Rules R125, R126, R133 (the crossing marked derived): the two triangles: their spans, their relation,
their turning points, and where a triangle meets itself half a cycle later. In exact arithmetic. -/
def Obligations.TriangleWaveforms : Prop :=
  ∀ (c : Config) (p : Rat), c.rounding = .exact → IsPhase p →
    (p < 1 / 2 → tri01 c p = 2 * p) ∧ (1 / 2 ≤ p → tri01 c p = 2 - 2 * p) ∧
    0 ≤ tri01 c p ∧ tri01 c p ≤ 1 ∧ tri c p = 2 * tri01 c p - 1 ∧
    (tri01 c p = tri01 c (fracPart (p + 1 / 2)) ↔ p = 1 / 4 ∨ p = 3 / 4)

/-- Rule R131, whose range the spec marks derived: the modulation value of variant 2 lies in [0, 1] for
every mode, every secondary term `BEAT` and every admissible rounding. -/
def Obligations.ModulationInUnitInterval : Prop :=
  ∀ (c : Config) (m : Mode) (p : Rat), RoundingAdmissible c → IsPhase p →
    0 ≤ lfoVal2 c m p ∧ lfoVal2 c m p ≤ 1

/-- Rule R136, which the spec marks derived: for a coefficient in [0, 1] the filter's result lies between
its state and its input; 0 holds the state, 1 is transparent. In exact arithmetic. -/
def Obligations.FilterIsConvex : Prop :=
  ∀ (c : Config) (y a x : Rat), c.rounding = .exact → 0 ≤ a → a ≤ 1 →
    (y ≤ x → y ≤ onepole c y a x ∧ onepole c y a x ≤ x) ∧
    (x ≤ y → x ≤ onepole c y a x ∧ onepole c y a x ≤ y) ∧
    (a = 0 → onepole c y a x = y) ∧ (a = 1 → onepole c y a x = x)

/-- Rules R142 and R143 (its properties marked derived): the soft clipper is the identity up to the
threshold, compresses by the ratio beyond it, is odd and monotone, and keeps the adopted constants' bound.
In exact arithmetic. -/
def Obligations.SoftClipShape : Prop :=
  ∀ (c : Config), c.rounding = .exact → 0 < c.satT → 0 ≤ c.satK →
    (∀ x, -c.satT ≤ x → x ≤ c.satT → softclip c x = x) ∧
    (∀ x, c.satT < x → softclip c x = c.satT + (x - c.satT) * c.satK) ∧
    (∀ x, softclip c (-x) = -softclip c x) ∧
    (∀ x y, x ≤ y → softclip c x ≤ softclip c y) ∧
    (c.satT = 16000 → c.satK = 3 / 10 → ∀ x, -32768 ≤ x → x ≤ 32768 →
      -(210304 / 10) ≤ softclip c x ∧ softclip c x ≤ 210304 / 10)

/-- Rules R145 and R146 (marked derived): with weights that sum to 256 and a wet value in the sample range
the mix is the floor of the weighted sum over 256: neither the accumulator nor the clamp comes into play.
-/
def Obligations.MixIsExact : Prop :=
  ∀ (x : Sample) (w : Int) (wet dry : BitVec 9), wet.toNat + dry.toNat = 256 → -32768 ≤ w → w ≤ 32767 →
    let acc := x.toInt * dry.toNat + w * wet.toNat
    (mix8 x w wet dry).toInt = ⌊(acc : Rat) / 256⌋ ∧ -8388608 ≤ acc ∧ acc ≤ 8388608 ∧
    (wet = 256 → (mix8 x w wet dry).toInt = w) ∧ (wet = 0 → mix8 x w wet dry = x)

/-- Rules R158, R240: the delay of a variant-1 tap stays inside the safe band for every triangle value, so
variant 1 cannot leave it. -/
def Obligations.V1DelayStaysInBand : Prop :=
  ∀ (s : State) (t : Rat), StateOk s → s.cfg.variant = .v1 → s.inst0.inited = true →
    s.cfg.v1MinDelay ≤ v1Delay s t ∧ v1Delay s t ≤ v1MaxDelayAt s.cfg s.inst0.cap.toNat ∧
    0 ≤ v1Delay s t ∧ v1Delay s t ≤ (s.inst0.cap.toNat : Rat) - 1 ∧
    (s.cfg.rounding = .exact → s.cfg.v1MinDelay ≤ s.v1.base + t * s.inst0.depth * s.cfg.v1ModRange →
      s.v1.base + t * s.inst0.depth * s.cfg.v1ModRange ≤ v1MaxDelayAt s.cfg s.inst0.cap.toNat →
      v1Delay s t = s.v1.base + t * s.inst0.depth * s.cfg.v1ModRange)

/-- Rules R181, R183: the delay of variant 2 stays in the mode's range; depth 0 gives the low end plus the
right channel's offset, full depth at the top of the waveform gives the high end. In exact arithmetic. -/
def Obligations.V2DelayStaysInRange : Prop :=
  ∀ (c : Config) (i : Inst) (v : Rat), c.rounding = .exact → i.minds ≤ i.maxds → 0 ≤ c.v2RightOffset →
    i.minds ≤ v2Delay c i v ∧ v2Delay c i v ≤ i.maxds ∧
    (i.depth = 0 → i.isRight = false → v2Delay c i v = i.minds) ∧
    (i.depth = 0 → i.isRight = true → i.minds + c.v2RightOffset ≤ i.maxds →
      v2Delay c i v = i.minds + c.v2RightOffset) ∧
    (i.depth = 1 → v = 1 → v2Delay c i v = i.maxds)

/-! ## Invariants -/

/-- Rule R51, which the spec marks derived: a well-formed state is what reset leaves, in every admissible
configuration whose rate range holds the reset rate 1/2 (rule R28), whatever canonical memory it has. -/
def Obligations.ResetIsWellFormed : Prop :=
  ∀ (c : Config) (d0 d1 b0 b1 : Memory), ConfigAdmissible c → rateMin c ≤ 1 / 2 → 1 / 2 ≤ rateMax c →
    Memory.wf d0 = true → Memory.wf d1 = true → Memory.wf b0 = true → Memory.wf b1 = true →
    StateOk (State.resetWith c d0 d1 b0 b1)

/-- Rule R51, which the spec marks derived: every step keeps a state well-formed: the clauses (a) to (g)
of the rule, the delay range of the current mode, the mix weights, and the canonical form of every memory
space, for every admissible configuration. -/
def Obligations.StepKeepsStateWellFormed : Prop :=
  ∀ s t : State, StateOk s → step s = .next t → StateOk t

/-- Rule R136, which the spec marks derived: in exact arithmetic the filter states never leave the sample
range. -/
def Obligations.StepKeepsFiltersInRange : Prop :=
  ∀ s t : State, StateOk s → s.cfg.rounding = .exact → FiltersOk s.inst0 → FiltersOk s.inst1 →
    step s = .next t → FiltersOk t.inst0 ∧ FiltersOk t.inst1

/-- Rules R210, R219: every command word, legal or not, is taken from the port and answered, in every
well-formed state: on a variant-1 device under every admissible rounding, on a variant-2 device where
arithmetic is exact or every engine that takes part has a line long enough (rule R241). -/
def Obligations.EveryCommandIsAnswered : Prop :=
  ∀ (s : State) (w : Word64) (rest : List HostMove), StateOk s → s.input = .command w :: rest →
    (s.cfg.variant = .v1 ∨ s.cfg.rounding = .exact ∨ ∀ c, TakesPart s c → LineLongEnough (s.inst c)) →
    ∃ (t : State) (rw : Word64), step s = .next t ∧ t.resp = some rw ∧ t.input = rest
end

