-- ==== Sys2Proof/Laws/State.lean ====
section
/-! SUPPORT. One lemma per field per update of State, tagged simp, so that no later proof unfolds a
record update. -/

namespace Sys2Proof.Machine

/-! ## The accessors at a known slot -/

@[simp] theorem State.inst_s0 (s : State) : s.inst .s0 = s.inst0 := rfl
@[simp] theorem State.inst_s1 (s : State) : s.inst .s1 = s.inst1 := rfl
@[simp] theorem State.dly_s0 (s : State) : s.dly .s0 = s.dly0 := rfl
@[simp] theorem State.dly_s1 (s : State) : s.dly .s1 = s.dly1 := rfl
@[simp] theorem State.blk_s0 (s : State) : s.blk .s0 = s.blk0 := rfl
@[simp] theorem State.blk_s1 (s : State) : s.blk .s1 = s.blk1 := rfl

/-! ## setResp -/

@[simp] theorem State.setResp_cfg (s : State) (w : Word64) : (s.setResp w).cfg = s.cfg := rfl
@[simp] theorem State.setResp_v1 (s : State) (w : Word64) : (s.setResp w).v1 = s.v1 := rfl
@[simp] theorem State.setResp_latch (s : State) (w : Word64) : (s.setResp w).latch = s.latch := rfl
@[simp] theorem State.setResp_input (s : State) (w : Word64) : (s.setResp w).input = s.input := rfl
@[simp] theorem State.setResp_resp (s : State) (w : Word64) : (s.setResp w).resp = some w := rfl
@[simp] theorem State.setResp_inst0 (s : State) (w : Word64) : (s.setResp w).inst0 = s.inst0 := rfl
@[simp] theorem State.setResp_inst1 (s : State) (w : Word64) : (s.setResp w).inst1 = s.inst1 := rfl
@[simp] theorem State.setResp_inst (s : State) (w : Word64) (c : Slot) : (s.setResp w).inst c = s.inst c := by
  cases c <;> rfl
@[simp] theorem State.setResp_dly0 (s : State) (w : Word64) : (s.setResp w).dly0 = s.dly0 := rfl
@[simp] theorem State.setResp_dly1 (s : State) (w : Word64) : (s.setResp w).dly1 = s.dly1 := rfl
@[simp] theorem State.setResp_dly (s : State) (w : Word64) (c : Slot) : (s.setResp w).dly c = s.dly c := by
  cases c <;> rfl
@[simp] theorem State.setResp_blk0 (s : State) (w : Word64) : (s.setResp w).blk0 = s.blk0 := rfl
@[simp] theorem State.setResp_blk1 (s : State) (w : Word64) : (s.setResp w).blk1 = s.blk1 := rfl
@[simp] theorem State.setResp_blk (s : State) (w : Word64) (c : Slot) : (s.setResp w).blk c = s.blk c := by
  cases c <;> rfl

/-! ## setV1 -/

@[simp] theorem State.setV1_cfg (s : State) (v : V1Regs) : (s.setV1 v).cfg = s.cfg := rfl
@[simp] theorem State.setV1_v1 (s : State) (v : V1Regs) : (s.setV1 v).v1 = v := rfl
@[simp] theorem State.setV1_latch (s : State) (v : V1Regs) : (s.setV1 v).latch = s.latch := rfl
@[simp] theorem State.setV1_input (s : State) (v : V1Regs) : (s.setV1 v).input = s.input := rfl
@[simp] theorem State.setV1_resp (s : State) (v : V1Regs) : (s.setV1 v).resp = s.resp := rfl
@[simp] theorem State.setV1_inst0 (s : State) (v : V1Regs) : (s.setV1 v).inst0 = s.inst0 := rfl
@[simp] theorem State.setV1_inst1 (s : State) (v : V1Regs) : (s.setV1 v).inst1 = s.inst1 := rfl
@[simp] theorem State.setV1_inst (s : State) (v : V1Regs) (c : Slot) : (s.setV1 v).inst c = s.inst c := by
  cases c <;> rfl
@[simp] theorem State.setV1_dly0 (s : State) (v : V1Regs) : (s.setV1 v).dly0 = s.dly0 := rfl
@[simp] theorem State.setV1_dly1 (s : State) (v : V1Regs) : (s.setV1 v).dly1 = s.dly1 := rfl
@[simp] theorem State.setV1_dly (s : State) (v : V1Regs) (c : Slot) : (s.setV1 v).dly c = s.dly c := by
  cases c <;> rfl
@[simp] theorem State.setV1_blk0 (s : State) (v : V1Regs) : (s.setV1 v).blk0 = s.blk0 := rfl
@[simp] theorem State.setV1_blk1 (s : State) (v : V1Regs) : (s.setV1 v).blk1 = s.blk1 := rfl
@[simp] theorem State.setV1_blk (s : State) (v : V1Regs) (c : Slot) : (s.setV1 v).blk c = s.blk c := by
  cases c <;> rfl

/-! ## setLatch -/

@[simp] theorem State.setLatch_cfg (s : State) (l : Latch) : (s.setLatch l).cfg = s.cfg := rfl
@[simp] theorem State.setLatch_v1 (s : State) (l : Latch) : (s.setLatch l).v1 = s.v1 := rfl
@[simp] theorem State.setLatch_latch (s : State) (l : Latch) : (s.setLatch l).latch = l := rfl
@[simp] theorem State.setLatch_input (s : State) (l : Latch) : (s.setLatch l).input = s.input := rfl
@[simp] theorem State.setLatch_resp (s : State) (l : Latch) : (s.setLatch l).resp = s.resp := rfl
@[simp] theorem State.setLatch_inst0 (s : State) (l : Latch) : (s.setLatch l).inst0 = s.inst0 := rfl
@[simp] theorem State.setLatch_inst1 (s : State) (l : Latch) : (s.setLatch l).inst1 = s.inst1 := rfl
@[simp] theorem State.setLatch_inst (s : State) (l : Latch) (c : Slot) : (s.setLatch l).inst c = s.inst c := by
  cases c <;> rfl
@[simp] theorem State.setLatch_dly0 (s : State) (l : Latch) : (s.setLatch l).dly0 = s.dly0 := rfl
@[simp] theorem State.setLatch_dly1 (s : State) (l : Latch) : (s.setLatch l).dly1 = s.dly1 := rfl
@[simp] theorem State.setLatch_dly (s : State) (l : Latch) (c : Slot) : (s.setLatch l).dly c = s.dly c := by
  cases c <;> rfl
@[simp] theorem State.setLatch_blk0 (s : State) (l : Latch) : (s.setLatch l).blk0 = s.blk0 := rfl
@[simp] theorem State.setLatch_blk1 (s : State) (l : Latch) : (s.setLatch l).blk1 = s.blk1 := rfl
@[simp] theorem State.setLatch_blk (s : State) (l : Latch) (c : Slot) : (s.setLatch l).blk c = s.blk c := by
  cases c <;> rfl

/-! ## setInst -/

@[simp] theorem State.setInst_cfg (s : State) (c : Slot) (v : Inst) : (s.setInst c v).cfg = s.cfg := by
  cases c <;> rfl
@[simp] theorem State.setInst_v1 (s : State) (c : Slot) (v : Inst) : (s.setInst c v).v1 = s.v1 := by
  cases c <;> rfl
@[simp] theorem State.setInst_latch (s : State) (c : Slot) (v : Inst) : (s.setInst c v).latch = s.latch := by
  cases c <;> rfl
@[simp] theorem State.setInst_input (s : State) (c : Slot) (v : Inst) : (s.setInst c v).input = s.input := by
  cases c <;> rfl
@[simp] theorem State.setInst_resp (s : State) (c : Slot) (v : Inst) : (s.setInst c v).resp = s.resp := by
  cases c <;> rfl
@[simp] theorem State.setInst_s0_inst0 (s : State) (v : Inst) : (s.setInst .s0 v).inst0 = v := rfl
@[simp] theorem State.setInst_s0_inst1 (s : State) (v : Inst) : (s.setInst .s0 v).inst1 = s.inst1 := rfl
@[simp] theorem State.setInst_s1_inst0 (s : State) (v : Inst) : (s.setInst .s1 v).inst0 = s.inst0 := rfl
@[simp] theorem State.setInst_s1_inst1 (s : State) (v : Inst) : (s.setInst .s1 v).inst1 = v := rfl
@[simp] theorem State.setInst_inst_same (s : State) (c : Slot) (v : Inst) : (s.setInst c v).inst c = v := by
  cases c <;> rfl
theorem State.setInst_inst_other (s : State) (c d : Slot) (v : Inst) (h : d ≠ c) :
    (s.setInst c v).inst d = s.inst d := by
  cases c <;> cases d <;> first | rfl | exact absurd rfl h
@[simp] theorem State.setInst_dly0 (s : State) (c : Slot) (v : Inst) : (s.setInst c v).dly0 = s.dly0 := by
  cases c <;> rfl
@[simp] theorem State.setInst_dly1 (s : State) (c : Slot) (v : Inst) : (s.setInst c v).dly1 = s.dly1 := by
  cases c <;> rfl
@[simp] theorem State.setInst_dly (s : State) (c d : Slot) (v : Inst) : (s.setInst c v).dly d = s.dly d := by
  cases c <;> cases d <;> rfl
@[simp] theorem State.setInst_blk0 (s : State) (c : Slot) (v : Inst) : (s.setInst c v).blk0 = s.blk0 := by
  cases c <;> rfl
@[simp] theorem State.setInst_blk1 (s : State) (c : Slot) (v : Inst) : (s.setInst c v).blk1 = s.blk1 := by
  cases c <;> rfl
@[simp] theorem State.setInst_blk (s : State) (c d : Slot) (v : Inst) : (s.setInst c v).blk d = s.blk d := by
  cases c <;> cases d <;> rfl

/-! ## setDly -/

@[simp] theorem State.setDly_cfg (s : State) (c : Slot) (m : Memory) : (s.setDly c m).cfg = s.cfg := by
  cases c <;> rfl
@[simp] theorem State.setDly_v1 (s : State) (c : Slot) (m : Memory) : (s.setDly c m).v1 = s.v1 := by
  cases c <;> rfl
@[simp] theorem State.setDly_latch (s : State) (c : Slot) (m : Memory) : (s.setDly c m).latch = s.latch := by
  cases c <;> rfl
@[simp] theorem State.setDly_input (s : State) (c : Slot) (m : Memory) : (s.setDly c m).input = s.input := by
  cases c <;> rfl
@[simp] theorem State.setDly_resp (s : State) (c : Slot) (m : Memory) : (s.setDly c m).resp = s.resp := by
  cases c <;> rfl
@[simp] theorem State.setDly_inst0 (s : State) (c : Slot) (m : Memory) : (s.setDly c m).inst0 = s.inst0 := by
  cases c <;> rfl
@[simp] theorem State.setDly_inst1 (s : State) (c : Slot) (m : Memory) : (s.setDly c m).inst1 = s.inst1 := by
  cases c <;> rfl
@[simp] theorem State.setDly_inst (s : State) (c d : Slot) (m : Memory) : (s.setDly c m).inst d = s.inst d := by
  cases c <;> cases d <;> rfl
@[simp] theorem State.setDly_s0_dly0 (s : State) (m : Memory) : (s.setDly .s0 m).dly0 = m := rfl
@[simp] theorem State.setDly_s0_dly1 (s : State) (m : Memory) : (s.setDly .s0 m).dly1 = s.dly1 := rfl
@[simp] theorem State.setDly_s1_dly0 (s : State) (m : Memory) : (s.setDly .s1 m).dly0 = s.dly0 := rfl
@[simp] theorem State.setDly_s1_dly1 (s : State) (m : Memory) : (s.setDly .s1 m).dly1 = m := rfl
@[simp] theorem State.setDly_dly_same (s : State) (c : Slot) (m : Memory) : (s.setDly c m).dly c = m := by
  cases c <;> rfl
theorem State.setDly_dly_other (s : State) (c d : Slot) (m : Memory) (h : d ≠ c) :
    (s.setDly c m).dly d = s.dly d := by
  cases c <;> cases d <;> first | rfl | exact absurd rfl h
@[simp] theorem State.setDly_blk0 (s : State) (c : Slot) (m : Memory) : (s.setDly c m).blk0 = s.blk0 := by
  cases c <;> rfl
@[simp] theorem State.setDly_blk1 (s : State) (c : Slot) (m : Memory) : (s.setDly c m).blk1 = s.blk1 := by
  cases c <;> rfl
@[simp] theorem State.setDly_blk (s : State) (c d : Slot) (m : Memory) : (s.setDly c m).blk d = s.blk d := by
  cases c <;> cases d <;> rfl

/-! ## setBlk -/

@[simp] theorem State.setBlk_cfg (s : State) (c : Slot) (m : Memory) : (s.setBlk c m).cfg = s.cfg := by
  cases c <;> rfl
@[simp] theorem State.setBlk_v1 (s : State) (c : Slot) (m : Memory) : (s.setBlk c m).v1 = s.v1 := by
  cases c <;> rfl
@[simp] theorem State.setBlk_latch (s : State) (c : Slot) (m : Memory) : (s.setBlk c m).latch = s.latch := by
  cases c <;> rfl
@[simp] theorem State.setBlk_input (s : State) (c : Slot) (m : Memory) : (s.setBlk c m).input = s.input := by
  cases c <;> rfl
@[simp] theorem State.setBlk_resp (s : State) (c : Slot) (m : Memory) : (s.setBlk c m).resp = s.resp := by
  cases c <;> rfl
@[simp] theorem State.setBlk_inst0 (s : State) (c : Slot) (m : Memory) : (s.setBlk c m).inst0 = s.inst0 := by
  cases c <;> rfl
@[simp] theorem State.setBlk_inst1 (s : State) (c : Slot) (m : Memory) : (s.setBlk c m).inst1 = s.inst1 := by
  cases c <;> rfl
@[simp] theorem State.setBlk_inst (s : State) (c d : Slot) (m : Memory) : (s.setBlk c m).inst d = s.inst d := by
  cases c <;> cases d <;> rfl
@[simp] theorem State.setBlk_dly0 (s : State) (c : Slot) (m : Memory) : (s.setBlk c m).dly0 = s.dly0 := by
  cases c <;> rfl
@[simp] theorem State.setBlk_dly1 (s : State) (c : Slot) (m : Memory) : (s.setBlk c m).dly1 = s.dly1 := by
  cases c <;> rfl
@[simp] theorem State.setBlk_dly (s : State) (c d : Slot) (m : Memory) : (s.setBlk c m).dly d = s.dly d := by
  cases c <;> cases d <;> rfl
@[simp] theorem State.setBlk_s0_blk0 (s : State) (m : Memory) : (s.setBlk .s0 m).blk0 = m := rfl
@[simp] theorem State.setBlk_s0_blk1 (s : State) (m : Memory) : (s.setBlk .s0 m).blk1 = s.blk1 := rfl
@[simp] theorem State.setBlk_s1_blk0 (s : State) (m : Memory) : (s.setBlk .s1 m).blk0 = s.blk0 := rfl
@[simp] theorem State.setBlk_s1_blk1 (s : State) (m : Memory) : (s.setBlk .s1 m).blk1 = m := rfl
@[simp] theorem State.setBlk_blk_same (s : State) (c : Slot) (m : Memory) : (s.setBlk c m).blk c = m := by
  cases c <;> rfl
theorem State.setBlk_blk_other (s : State) (c d : Slot) (m : Memory) (h : d ≠ c) :
    (s.setBlk c m).blk d = s.blk d := by
  cases c <;> cases d <;> first | rfl | exact absurd rfl h

/-! ## The block words -/

@[simp] theorem State.setBlkWord_cfg (s : State) (c : Slot) (n : Nat) (v : Sample) : (s.setBlkWord c n v).cfg = s.cfg := by
  simp [State.setBlkWord]
@[simp] theorem State.setBlkWord_inst (s : State) (c d : Slot) (n : Nat) (v : Sample) : (s.setBlkWord c n v).inst d = s.inst d := by
  simp [State.setBlkWord]
@[simp] theorem State.setBlkWord_inst0 (s : State) (c : Slot) (n : Nat) (v : Sample) : (s.setBlkWord c n v).inst0 = s.inst0 := by
  simp [State.setBlkWord]
@[simp] theorem State.setBlkWord_inst1 (s : State) (c : Slot) (n : Nat) (v : Sample) : (s.setBlkWord c n v).inst1 = s.inst1 := by
  simp [State.setBlkWord]
@[simp] theorem State.setBlkWord_v1 (s : State) (c : Slot) (n : Nat) (v : Sample) : (s.setBlkWord c n v).v1 = s.v1 := by
  simp [State.setBlkWord]
@[simp] theorem State.setBlkWord_latch (s : State) (c : Slot) (n : Nat) (v : Sample) : (s.setBlkWord c n v).latch = s.latch := by
  simp [State.setBlkWord]
@[simp] theorem State.setBlkWord_dly (s : State) (c d : Slot) (n : Nat) (v : Sample) : (s.setBlkWord c n v).dly d = s.dly d := by
  simp [State.setBlkWord]
@[simp] theorem State.setBlkWord_dly0 (s : State) (c : Slot) (n : Nat) (v : Sample) : (s.setBlkWord c n v).dly0 = s.dly0 := by
  simp [State.setBlkWord]
@[simp] theorem State.setBlkWord_dly1 (s : State) (c : Slot) (n : Nat) (v : Sample) : (s.setBlkWord c n v).dly1 = s.dly1 := by
  simp [State.setBlkWord]
@[simp] theorem State.setBlkWord_input (s : State) (c : Slot) (n : Nat) (v : Sample) : (s.setBlkWord c n v).input = s.input := by
  simp [State.setBlkWord]
@[simp] theorem State.setBlkWord_resp (s : State) (c : Slot) (n : Nat) (v : Sample) : (s.setBlkWord c n v).resp = s.resp := by
  simp [State.setBlkWord]

/-! ## How a command ends -/

@[simp] theorem outcomeOf_ok (s : State) : outcomeOf (.ok s) = .next s := rfl
@[simp] theorem outcomeOf_error (f : Fault) : outcomeOf (.error f) = .fault f := rfl

/-- All a `respond` or a `raise` changes is the response word. -/
theorem respond_eq (flag : Bool) (value : BitVec 32) (s : State) :
    respond flag value s = s.setResp (responseWord .ok flag value) := rfl
theorem raiseStatus_eq (st : Status) (s : State) :
    raiseStatus st s = s.setResp (responseWord st false 0) := rfl

@[simp] theorem respond_cfg (flag : Bool) (value : BitVec 32) (s : State) : (respond flag value s).cfg = s.cfg := rfl
@[simp] theorem respond_v1 (flag : Bool) (value : BitVec 32) (s : State) : (respond flag value s).v1 = s.v1 := rfl
@[simp] theorem respond_latch (flag : Bool) (value : BitVec 32) (s : State) : (respond flag value s).latch = s.latch := rfl
@[simp] theorem respond_input (flag : Bool) (value : BitVec 32) (s : State) : (respond flag value s).input = s.input := rfl
@[simp] theorem respond_inst0 (flag : Bool) (value : BitVec 32) (s : State) : (respond flag value s).inst0 = s.inst0 := rfl
@[simp] theorem respond_inst1 (flag : Bool) (value : BitVec 32) (s : State) : (respond flag value s).inst1 = s.inst1 := rfl
@[simp] theorem respond_dly0 (flag : Bool) (value : BitVec 32) (s : State) : (respond flag value s).dly0 = s.dly0 := rfl
@[simp] theorem respond_dly1 (flag : Bool) (value : BitVec 32) (s : State) : (respond flag value s).dly1 = s.dly1 := rfl
@[simp] theorem respond_blk0 (flag : Bool) (value : BitVec 32) (s : State) : (respond flag value s).blk0 = s.blk0 := rfl
@[simp] theorem respond_blk1 (flag : Bool) (value : BitVec 32) (s : State) : (respond flag value s).blk1 = s.blk1 := rfl
@[simp] theorem respond_inst (flag : Bool) (value : BitVec 32) (s : State) (c : Slot) : (respond flag value s).inst c = s.inst c := by
  cases c <;> rfl
@[simp] theorem respond_dly (flag : Bool) (value : BitVec 32) (s : State) (c : Slot) : (respond flag value s).dly c = s.dly c := by
  cases c <;> rfl
@[simp] theorem respond_blk (flag : Bool) (value : BitVec 32) (s : State) (c : Slot) : (respond flag value s).blk c = s.blk c := by
  cases c <;> rfl
@[simp] theorem raiseStatus_cfg (st : Status) (s : State) : (raiseStatus st s).cfg = s.cfg := rfl
@[simp] theorem raiseStatus_v1 (st : Status) (s : State) : (raiseStatus st s).v1 = s.v1 := rfl
@[simp] theorem raiseStatus_latch (st : Status) (s : State) : (raiseStatus st s).latch = s.latch := rfl
@[simp] theorem raiseStatus_input (st : Status) (s : State) : (raiseStatus st s).input = s.input := rfl
@[simp] theorem raiseStatus_inst0 (st : Status) (s : State) : (raiseStatus st s).inst0 = s.inst0 := rfl
@[simp] theorem raiseStatus_inst1 (st : Status) (s : State) : (raiseStatus st s).inst1 = s.inst1 := rfl
@[simp] theorem raiseStatus_dly0 (st : Status) (s : State) : (raiseStatus st s).dly0 = s.dly0 := rfl
@[simp] theorem raiseStatus_dly1 (st : Status) (s : State) : (raiseStatus st s).dly1 = s.dly1 := rfl
@[simp] theorem raiseStatus_blk0 (st : Status) (s : State) : (raiseStatus st s).blk0 = s.blk0 := rfl
@[simp] theorem raiseStatus_blk1 (st : Status) (s : State) : (raiseStatus st s).blk1 = s.blk1 := rfl
@[simp] theorem raiseStatus_inst (st : Status) (s : State) (c : Slot) : (raiseStatus st s).inst c = s.inst c := by
  cases c <;> rfl
@[simp] theorem raiseStatus_dly (st : Status) (s : State) (c : Slot) : (raiseStatus st s).dly c = s.dly c := by
  cases c <;> rfl
@[simp] theorem raiseStatus_blk (st : Status) (s : State) (c : Slot) : (raiseStatus st s).blk c = s.blk c := by
  cases c <;> rfl
@[simp] theorem respond_resp (flag : Bool) (value : BitVec 32) (s : State) :
    (respond flag value s).resp = some (responseWord .ok flag value) := rfl
@[simp] theorem raiseStatus_resp (st : Status) (s : State) :
    (raiseStatus st s).resp = some (responseWord st false 0) := rfl

/-- A command on a device of its own variant is its effect. -/
theorem onVariant_of_eq {v : Variant} {s : State} {e : Except Fault State} (h : s.cfg.variant = v) :
    onVariant v s e = outcomeOf e := if_pos h
/-- A command on a device of the other variant is answered ILLEGAL. -/
theorem onVariant_of_ne {v : Variant} {s : State} {e : Except Fault State} (h : s.cfg.variant ≠ v) :
    onVariant v s e = .next (raiseStatus .illegal s) := if_neg h
/-- What a command can answer: on the other variant only the ILLEGAL response, on its own only what its
effect gives. -/
theorem onVariant_next {v : Variant} {s t : State} {e : Except Fault State} (h : onVariant v s e = .next t) :
    (s.cfg.variant = v ∧ e = .ok t) ∨ (s.cfg.variant ≠ v ∧ t = raiseStatus .illegal s) := by
  unfold onVariant at h
  split at h
  · rename_i hv
    cases e with
    | ok u => exact .inl ⟨hv, by simpa using h⟩
    | error f => simp at h
  · rename_i hv
    exact .inr ⟨hv, by simpa using h.symm⟩

end Sys2Proof.Machine
end

