-- ==== Sys2Proof/Laws/Memory.lean ====
section
/-! SUPPORT. The laws of a memory space: what a byte and a word read after a write, that every memory
operation keeps the canonical form, and that the zero fill is the loop of rule R67. -/

namespace Sys2Proof.Machine

/-! ## The canonical form -/

theorem Memory.wf_iff (m : Memory) :
    Memory.wf m = true ↔ m.Pairwise (fun x y => x.1 < y.1) ∧ ∀ x ∈ m, x.2 ≠ unlistedByte := by
  simp [Memory.wf]

@[simp] theorem Memory.wf_nil : Memory.wf [] = true := by simp [Memory.wf]

theorem Memory.wf_cons (x : Host.Cell) (m : Memory) :
    Memory.wf (x :: m) = true ↔ (∀ y ∈ m, x.1 < y.1) ∧ x.2 ≠ unlistedByte ∧ Memory.wf m = true := by
  simp only [Memory.wf_iff, List.pairwise_cons, List.mem_cons, forall_eq_or_imp]
  tauto

theorem Memory.readByte_of_lt (m : Memory) (a : Nat) (h : ∀ x ∈ m, a < x.1) :
    Memory.readByte m a = unlistedByte := by
  induction m with
  | nil => rfl
  | cons x m ih =>
    obtain ⟨b, v⟩ := x
    have hb : a < b := h (b, v) (by simp)
    simp only [Memory.readByte]
    rw [if_neg (by omega)]
    exact ih fun y hy => h y (by simp [hy])

/-! ## One byte written -/

theorem Memory.mem_cell {a : Nat} {v : Byte} {x : Host.Cell} (h : x ∈ Memory.cell a v) :
    x = (a, v) ∧ v ≠ unlistedByte := by
  unfold Memory.cell at h
  split at h
  · simp at h
  · exact ⟨by simpa using h, by assumption⟩

theorem Memory.mem_writeByte {m : Memory} {a : Nat} {v : Byte} {x : Host.Cell}
    (h : x ∈ Memory.writeByte m a v) : (x = (a, v) ∧ v ≠ unlistedByte) ∨ x ∈ m := by
  induction m with
  | nil => exact .inl (Memory.mem_cell h)
  | cons y m ih =>
    obtain ⟨b, u⟩ := y
    simp only [Memory.writeByte] at h
    split at h
    · rcases List.mem_cons.1 h with rfl | h
      · exact .inr (by simp)
      · rcases ih h with h | h
        · exact .inl h
        · exact .inr (by simp [h])
    · split at h
      · rcases List.mem_append.1 h with h | h
        · exact .inl (Memory.mem_cell h)
        · exact .inr (by simp [h])
      · rcases List.mem_append.1 h with h | h
        · exact .inl (Memory.mem_cell h)
        · exact .inr h

theorem Memory.wf_cell_append {m : Memory} {a : Nat} {v : Byte} (hm : Memory.wf m = true)
    (h : ∀ x ∈ m, a < x.1) : Memory.wf (Memory.cell a v ++ m) = true := by
  unfold Memory.cell
  split
  · simpa using hm
  · rename_i hv
    exact (Memory.wf_cons _ _).2 ⟨h, hv, hm⟩

theorem Memory.writeByte_wf {m : Memory} (a : Nat) (v : Byte) (hm : Memory.wf m = true) :
    Memory.wf (Memory.writeByte m a v) = true := by
  induction m with
  | nil => simpa [Memory.writeByte] using Memory.wf_cell_append (a := a) (v := v) Memory.wf_nil (by simp)
  | cons y m ih =>
    obtain ⟨b, u⟩ := y
    obtain ⟨hlt, hu, hm'⟩ := (Memory.wf_cons _ _).1 hm
    simp only [Memory.writeByte]
    split
    · rename_i hba
      refine (Memory.wf_cons _ _).2 ⟨fun x hx => ?_, hu, ih hm'⟩
      rcases Memory.mem_writeByte hx with ⟨rfl, _⟩ | hx
      · exact hba
      · exact hlt x hx
    · split
      · rename_i hab
        exact Memory.wf_cell_append hm' fun x hx => by have := hlt x hx; simp_all
      · rename_i h1 h2
        refine Memory.wf_cell_append hm fun x hx => ?_
        rcases List.mem_cons.1 hx with rfl | hx
        · show a < b
          omega
        · have : b < x.1 := hlt x hx
          omega

theorem Memory.readByte_cell_append {m : Memory} {a : Nat} {v : Byte} (h : ∀ x ∈ m, a < x.1) (b : Nat) :
    Memory.readByte (Memory.cell a v ++ m) b = if b = a then v else Memory.readByte m b := by
  unfold Memory.cell
  split
  · rename_i hv
    by_cases hb : b = a
    · subst hb
      simp [Memory.readByte_of_lt m b h, hv]
    · simp [hb]
  · by_cases hb : b = a
    · simp [Memory.readByte, hb]
    · simp [Memory.readByte, hb, Ne.symm hb]

/-- A byte read after a write: the byte written there, every other byte as before. -/
theorem Memory.readByte_writeByte {m : Memory} (hm : Memory.wf m = true) (a : Nat) (v : Byte) (b : Nat) :
    Memory.readByte (Memory.writeByte m a v) b = if b = a then v else Memory.readByte m b := by
  induction m with
  | nil => simpa [Memory.writeByte] using Memory.readByte_cell_append (m := []) (v := v) (a := a) (by simp) b
  | cons y m ih =>
    obtain ⟨c, u⟩ := y
    obtain ⟨hlt, hu, hm'⟩ := (Memory.wf_cons _ _).1 hm
    simp only [Memory.writeByte]
    split
    · rename_i hca
      simp only [Memory.readByte]
      by_cases hcb : c = b
      · rw [if_pos hcb, if_pos hcb, if_neg (by omega)]
      · rw [if_neg hcb, if_neg hcb, ih hm']
    · split
      · rename_i hca
        rw [Memory.readByte_cell_append fun x hx => by have := hlt x hx; simp_all]
        by_cases hb : b = a
        · simp [hb]
        · rw [if_neg hb, if_neg hb]
          simp only [Memory.readByte]
          rw [if_neg (by omega)]
      · rename_i h1 h2
        refine Memory.readByte_cell_append (fun x hx => ?_) b
        rcases List.mem_cons.1 hx with rfl | hx
        · show a < c
          omega
        · have : c < x.1 := hlt x hx
          omega

/-! ## One word written -/

theorem Memory.writeWord_wf {m : Memory} (i : Nat) (v : Sample) (hm : Memory.wf m = true) :
    Memory.wf (Memory.writeWord m i v) = true :=
  Memory.writeByte_wf _ _ (Memory.writeByte_wf _ _ hm)

theorem Memory.readByte_writeWord {m : Memory} (hm : Memory.wf m = true) (i : Nat) (v : Sample) (b : Nat) :
    Memory.readByte (Memory.writeWord m i v) b =
      if b = 2 * i + 1 then v.extractLsb' 8 8
      else if b = 2 * i then v.extractLsb' 0 8 else Memory.readByte m b := by
  simp only [Memory.writeWord, Memory.readByte_writeByte (Memory.writeByte_wf _ _ hm), Memory.readByte_writeByte hm]

theorem sample_of_bytes (v : Sample) : v.extractLsb' 8 8 ++ v.extractLsb' 0 8 = v := by
  apply BitVec.eq_of_getLsbD_eq
  intro i hi
  simp only [BitVec.getLsbD_append, BitVec.getLsbD_extractLsb']
  by_cases h : i < 8
  · simp [h]
  · simp [h, show i - 8 < 8 by omega, show 8 + (i - 8) = i by omega]

/-- A word read after a write (rule R63): the word written there, every other word as before. -/
theorem Memory.readWord_writeWord {m : Memory} (hm : Memory.wf m = true) (i : Nat) (v : Sample) (j : Nat) :
    Memory.readWord (Memory.writeWord m i v) j = if j = i then v else Memory.readWord m j := by
  unfold Memory.readWord
  rw [Memory.readByte_writeWord hm, Memory.readByte_writeWord hm]
  by_cases h : j = i
  · subst h
    simp [sample_of_bytes]
  · rw [if_neg (by omega), if_neg (by omega), if_neg (by omega), if_neg (by omega), if_neg h]

/-- A byte outside the word written reads as before. -/
theorem Memory.readByte_writeWord_other {m : Memory} (hm : Memory.wf m = true) {i b : Nat} (v : Sample)
    (h : b / 2 ≠ i) : Memory.readByte (Memory.writeWord m i v) b = Memory.readByte m b := by
  rw [Memory.readByte_writeWord hm, if_neg (by omega), if_neg (by omega)]

/-! ## The zero fill -/

theorem Memory.zeroWords_wf {m : Memory} (n : Nat) (hm : Memory.wf m = true) :
    Memory.wf (Memory.zeroWords m n) = true := by
  rw [Memory.wf_iff] at hm ⊢
  exact ⟨hm.1.sublist List.filter_sublist, fun x hx => hm.2 x (List.mem_of_mem_filter hx)⟩

/-- A byte read after the zero fill: zero below word `n`, every other byte as before. -/
theorem Memory.readByte_zeroWords (m : Memory) (n b : Nat) :
    Memory.readByte (Memory.zeroWords m n) b = if b < 2 * n then 0 else Memory.readByte m b := by
  induction m with
  | nil => simp [Memory.zeroWords, Memory.readByte, unlistedByte]
  | cons x m ih =>
    obtain ⟨a, v⟩ := x
    unfold Memory.zeroWords at ih ⊢
    rw [List.filter_cons]
    by_cases h : 2 * n ≤ a
    · simp only [h, decide_true, if_true, Memory.readByte, ih]
      by_cases hab : a = b
      · rw [if_pos hab, if_pos hab, if_neg (by omega)]
      · rw [if_neg hab, if_neg hab]
    · simp only [h, decide_false, Bool.false_eq_true, if_false, Memory.readByte, ih]
      by_cases hab : a = b
      · rw [if_pos (by omega), if_pos (by omega)]
      · rw [if_neg hab]

/-- A word read after the zero fill: zero below word `n`, every other word as before. -/
theorem Memory.readWord_zeroWords (m : Memory) (n i : Nat) :
    Memory.readWord (Memory.zeroWords m n) i = if i < n then 0 else Memory.readWord m i := by
  unfold Memory.readWord
  rw [Memory.readByte_zeroWords, Memory.readByte_zeroWords]
  by_cases h : i < n
  · rw [if_pos (by omega), if_pos (by omega), if_pos h]; rfl
  · rw [if_neg (by omega), if_neg (by omega), if_neg h]

/-- Two spaces in canonical form that read alike at every address are equal. -/
theorem Memory.ext_of_wf {m k : Memory} (hm : Memory.wf m = true) (hk : Memory.wf k = true)
    (h : ∀ a, Memory.readByte m a = Memory.readByte k a) : m = k := by
  induction m generalizing k with
  | nil =>
    cases k with
    | nil => rfl
    | cons y k =>
      obtain ⟨b, u⟩ := y
      have := h b
      simp only [Memory.readByte, if_true] at this
      exact absurd this.symm ((Memory.wf_cons _ _).1 hk).2.1
  | cons x m ih =>
    obtain ⟨a, v⟩ := x
    obtain ⟨hlt, hv, hm'⟩ := (Memory.wf_cons _ _).1 hm
    cases k with
    | nil =>
      have := h a
      simp only [Memory.readByte, if_true] at this
      exact absurd this hv
    | cons y k =>
      obtain ⟨b, u⟩ := y
      obtain ⟨hlt', hu, hk'⟩ := (Memory.wf_cons _ _).1 hk
      have hab : a = b := by
        rcases Nat.lt_trichotomy a b with hl | he | hl
        · have := h a
          simp only [Memory.readByte, if_true] at this
          rw [if_neg (by omega), Memory.readByte_of_lt k a fun z hz => Nat.lt_trans hl (hlt' z hz)] at this
          exact absurd this hv
        · exact he
        · have := h b
          simp only [Memory.readByte, if_true] at this
          rw [if_neg (by omega), Memory.readByte_of_lt m b fun z hz => Nat.lt_trans hl (hlt z hz)] at this
          exact absurd this.symm hu
      subst hab
      have huv : v = u := by simpa [Memory.readByte] using h a
      subst huv
      congr 1
      refine ih hm' hk' fun c => ?_
      by_cases hc : c = a
      · subst hc
        rw [Memory.readByte_of_lt m c hlt, Memory.readByte_of_lt k c hlt']
      · have := h c
        simpa only [Memory.readByte, if_neg (Ne.symm hc)] using this

theorem Memory.zeroLoop_wf {m : Memory} (n : Nat) (hm : Memory.wf m = true) :
    Memory.wf (Memory.zeroLoop m n) = true := by
  induction n with
  | zero => exact hm
  | succ n ih => exact Memory.writeWord_wf _ _ ih

/-- The zero fill is the loop of rule R67: `n` writes of a zero word, in ascending order. -/
theorem Memory.zeroWords_eq_loop {m : Memory} (n : Nat) (hm : Memory.wf m = true) :
    Memory.zeroWords m n = Memory.zeroLoop m n := by
  refine Memory.ext_of_wf (Memory.zeroWords_wf n hm) (Memory.zeroLoop_wf n hm) fun b => ?_
  rw [Memory.readByte_zeroWords]
  induction n with
  | zero => simp [Memory.zeroLoop]
  | succ n ih =>
    rw [Memory.zeroLoop, Memory.readByte_writeWord (Memory.zeroLoop_wf n hm), ← ih]
    by_cases h1 : b = 2 * n + 1
    · rw [if_pos (by omega), if_pos h1]; rfl
    · by_cases h2 : b = 2 * n
      · rw [if_pos (by omega), if_neg h1, if_pos h2]; rfl
      · rw [if_neg h1, if_neg h2]
        by_cases h3 : b < 2 * n
        · rw [if_pos (by omega), if_pos h3]
        · rw [if_neg (by omega), if_neg h3]

end Sys2Proof.Machine
end

