-- ==== Sys2Proof/Laws/Real.lean ====
section
/-! SUPPORT. The laws of REAL arithmetic with the rounding hook (rules R14, R15): what exact arithmetic
gives, what every admissible rounding keeps, and the bounds of the clamping primitives. -/

namespace Sys2Proof.Machine

/-! ## Exact arithmetic -/

section Exact
variable {c : Config} (h : c.rounding = .exact)
include h

theorem roundReal_exact (x : Rat) : roundReal c x = x := by simp [roundReal, h]
theorem radd_exact (x y : Rat) : radd c x y = x + y := roundReal_exact h _
theorem rsub_exact (x y : Rat) : rsub c x y = x - y := roundReal_exact h _
theorem rmul_exact (x y : Rat) : rmul c x y = x * y := roundReal_exact h _
theorem rdiv_exact (x y : Rat) : rdiv c x y = x / y := roundReal_exact h _

/-- The identity is an admissible rounding (rule R15). -/
theorem roundingAdmissible_of_exact : RoundingAdmissible c where
  int_exact k _ _ := roundReal_exact h _
  monotone x y hxy := by simpa [roundReal_exact h] using hxy
  odd x := by simp [roundReal_exact h]

end Exact

/-! ## Every admissible rounding (rule R15) -/

section Admissible
variable {c : Config} (h : RoundingAdmissible c)
include h

theorem roundReal_int {k : Int} (h1 : -16777216 ≤ k) (h2 : k ≤ 16777216) : roundReal c (k : Rat) = k :=
  h.int_exact k h1 h2

theorem roundReal_nat {n : Nat} (hn : n ≤ 16777216) : roundReal c (n : Rat) = n := by
  simpa using roundReal_int h (k := (n : Int)) (by omega) (by omega)

theorem roundReal_le_nat {x : Rat} {n : Nat} (hn : n ≤ 16777216) (hx : x ≤ n) : roundReal c x ≤ n :=
  (h.monotone _ _ hx).trans (roundReal_nat h hn).le

theorem roundReal_ge_nat {x : Rat} {n : Nat} (hn : n ≤ 16777216) (hx : (n : Rat) ≤ x) :
    (n : Rat) ≤ roundReal c x :=
  (roundReal_nat h hn).ge.trans (h.monotone _ _ hx)

theorem roundReal_nonneg {x : Rat} (hx : 0 ≤ x) : 0 ≤ roundReal c x := by
  simpa using roundReal_ge_nat h (n := 0) (by omega) (by simpa using hx)

theorem roundReal_le_one {x : Rat} (hx : x ≤ 1) : roundReal c x ≤ 1 := by
  simpa using roundReal_le_nat h (n := 1) (by omega) (by simpa using hx)

theorem roundReal_le_two {x : Rat} (hx : x ≤ 2) : roundReal c x ≤ 2 := by
  simpa using roundReal_le_nat h (n := 2) (by omega) (by simpa using hx)

theorem rmul_nonneg {x y : Rat} (hx : 0 ≤ x) (hy : 0 ≤ y) : 0 ≤ rmul c x y :=
  roundReal_nonneg h (mul_nonneg hx hy)

theorem rmul_mono_left {x y z : Rat} (hxy : x ≤ y) (hz : 0 ≤ z) : rmul c x z ≤ rmul c y z :=
  h.monotone _ _ (mul_le_mul_of_nonneg_right hxy hz)

end Admissible

/-! ## Clamping -/

theorem clampReal_ge {x lo hi : Rat} (h : lo ≤ hi) : lo ≤ clampReal x lo hi := by
  unfold clampReal
  split_ifs <;> linarith

theorem clampReal_le {x lo hi : Rat} (h : lo ≤ hi) : clampReal x lo hi ≤ hi := by
  unfold clampReal
  split_ifs <;> linarith

/-- A value inside the range is kept. -/
theorem clampReal_of_mem {x lo hi : Rat} (h1 : lo ≤ x) (h2 : x ≤ hi) : clampReal x lo hi = x := by
  unfold clampReal
  rw [if_neg (by linarith), if_neg (by linarith)]

theorem clamp01_ge (x : Rat) : 0 ≤ clamp01 x := clampReal_ge (by norm_num)
theorem clamp01_le (x : Rat) : clamp01 x ≤ 1 := clampReal_le (by norm_num)

theorem clampInt_ge {v lo hi : Int} (h : lo ≤ hi) : lo ≤ clampInt v lo hi := by
  unfold clampInt
  split_ifs <;> omega

theorem clampInt_le {v lo hi : Int} (h : lo ≤ hi) : clampInt v lo hi ≤ hi := by
  unfold clampInt
  split_ifs <;> omega

theorem clampInt_of_mem {v lo hi : Int} (h1 : lo ≤ v) (h2 : v ≤ hi) : clampInt v lo hi = v := by
  unfold clampInt
  split_ifs <;> omega

theorem absReal_nonneg (x : Rat) : 0 ≤ absReal x := by
  unfold absReal
  split_ifs <;> linarith

theorem le_absReal (x : Rat) : x ≤ absReal x := by
  unfold absReal
  split_ifs <;> linarith

theorem neg_le_absReal (x : Rat) : -x ≤ absReal x := by
  unfold absReal
  split_ifs <;> linarith

theorem absReal_of_nonneg {x : Rat} (h : 0 ≤ x) : absReal x = x := by
  unfold absReal
  rw [if_neg (by linarith)]

/-! ## Conversion to an integer (rule R140) -/

theorem rat_floor_eq (x : Rat) : x.floor = ⌊x⌋ := rfl

theorem toInt_intCast (k : Int) : toInt (k : Rat) = k := by
  unfold toInt
  split_ifs
  · simp [rat_floor_eq]
  · rw [rat_floor_eq, ← Int.cast_neg, Int.floor_intCast, neg_neg]

/-- `TOINT` keeps a range whose ends are integers, one at or below 0 and one at or above 0. -/
theorem toInt_mem {x : Rat} {lo hi : Int} (hlo : lo ≤ 0) (hhi : 0 ≤ hi) (h1 : (lo : Rat) ≤ x)
    (h2 : x ≤ (hi : Rat)) : lo ≤ toInt x ∧ toInt x ≤ hi := by
  unfold toInt
  split_ifs with h
  · rw [rat_floor_eq]
    have hf : (0 : Int) ≤ ⌊x⌋ := Int.floor_nonneg.2 h
    refine ⟨by omega, ?_⟩
    exact_mod_cast (Int.floor_le x).trans h2
  · rw [rat_floor_eq]
    have hf : (0 : Int) ≤ ⌊-x⌋ := Int.floor_nonneg.2 (by linarith)
    refine ⟨?_, by omega⟩
    have : (⌊-x⌋ : Rat) ≤ ((-lo : Int) : Rat) := by
      push_cast
      linarith [Int.floor_le (-x)]
    have : ⌊-x⌋ ≤ -lo := by exact_mod_cast this
    omega

/-- `round_half_away` from 0 on (rule R144). -/
theorem roundHalfAway_of_nonneg {x : Rat} (h : 0 ≤ x) : roundHalfAway x = ⌊x + 1 / 2⌋ := by
  rw [roundHalfAway, if_pos h, rat_floor_eq]

/-- The clamp of rule R144 does not bind where the rounded product lies in [0, 256]. -/
theorem wetWeight_eq {c : Config} {mix : Rat} (h0 : 0 ≤ rmul c mix 256) (h1 : rmul c mix 256 ≤ 256) :
    wetWeight c mix = ⌊rmul c mix 256 + 1 / 2⌋ := by
  rw [wetWeight, roundHalfAway_of_nonneg h0]
  apply clampInt_of_mem
  · exact Int.floor_nonneg.2 (by linarith)
  · have : ⌊rmul c mix 256 + 1 / 2⌋ < 257 := by
      rw [Int.floor_lt]
      push_cast
      linarith
    omega

/-- An admissible rounding keeps the product of a mix and 256 in [0, 256] (rule R15). -/
theorem mixProduct_mem {c : Config} {mix : Rat} (hr : RoundingAdmissible c) (h0 : 0 ≤ mix) (h1 : mix ≤ 1) :
    0 ≤ rmul c mix 256 ∧ rmul c mix 256 ≤ 256 := by
  have z : roundReal c 0 = 0 := by exact_mod_cast hr.int_exact 0 (by norm_num) (by norm_num)
  have t : roundReal c 256 = 256 := by exact_mod_cast hr.int_exact 256 (by norm_num) (by norm_num)
  constructor
  · have := hr.monotone 0 (mix * 256) (by linarith)
    rwa [z] at this
  · have := hr.monotone (mix * 256) 256 (by linarith)
    rwa [t] at this

theorem fracPart_eq (x : Rat) : fracPart x = Int.fract x := by
  rw [fracPart, rat_floor_eq, Int.fract]

theorem fracPart_nonneg (x : Rat) : 0 ≤ fracPart x := by
  rw [fracPart_eq]; exact Int.fract_nonneg x

theorem fracPart_lt_one (x : Rat) : fracPart x < 1 := by
  rw [fracPart_eq]; exact Int.fract_lt_one x

theorem fracPart_of_phase {x : Rat} (h : IsPhase x) : fracPart x = x := by
  rw [fracPart_eq]; exact Int.fract_eq_self.2 h

end Sys2Proof.Machine
end

