-- ==== Sys2Proof/Laws/Wrap.lean ====
section
/-! SUPPORT. The wrap loops (rules R113, R121, R252): what they answer in exact arithmetic, and that
they end, in range, for the arguments the rules produce under every admissible rounding. -/

namespace Sys2Proof.Machine

theorem rat_ceil_eq (x : Rat) : x.ceil = ⌈x⌉ := by
  rw [Rat.ceil_eq_neg_floor_neg, rat_floor_eq, Int.floor_neg, neg_neg]

/-! ## One loop -/

theorem wrapUp_of_nonneg (c : Config) (m : Rat) (k : Nat) {p : Rat} (h : 0 ≤ p) : wrapUp c m k p = .ok p := by
  cases k <;> simp [wrapUp, h]

theorem wrapDown_of_lt (c : Config) (m : Rat) (k : Nat) {p : Rat} (h : p < m) : wrapDown c m k p = .ok p := by
  cases k <;> simp [wrapDown, h]

/-- Whatever the loop answers has left its condition. -/
theorem wrapUp_ok {c : Config} {m : Rat} {k : Nat} {p q : Rat} (h : wrapUp c m k p = .ok q) : 0 ≤ q := by
  induction k generalizing p with
  | zero =>
    simp only [wrapUp] at h
    split_ifs at h with hp
    · cases h; exact hp
  | succ k ih =>
    simp only [wrapUp] at h
    split_ifs at h with hp
    · cases h; exact hp
    · exact ih h

theorem wrapDown_ok {c : Config} {m : Rat} {k : Nat} {p q : Rat} (h : wrapDown c m k p = .ok q) : q < m := by
  induction k generalizing p with
  | zero =>
    simp only [wrapDown] at h
    split_ifs at h with hp
    · cases h; exact hp
  | succ k ih =>
    simp only [wrapDown] at h
    split_ifs at h with hp
    · cases h; exact hp
    · exact ih h

/-- Subtraction never takes a nonnegative value below zero, under an admissible rounding. -/
theorem wrapDown_nonneg {c : Config} (hc : RoundingAdmissible c) {m : Rat} {k : Nat} {p q : Rat}
    (hp : 0 ≤ p) (h : wrapDown c m k p = .ok q) : 0 ≤ q := by
  induction k generalizing p with
  | zero =>
    simp only [wrapDown] at h
    split_ifs at h
    · cases h; exact hp
  | succ k ih =>
    simp only [wrapDown] at h
    split_ifs at h with hlt
    · cases h; exact hp
    · exact ih (roundReal_nonneg hc (by linarith)) h

/-- Exact arithmetic: within its bound the loop adds the modulus a whole number of times. -/
theorem wrapUp_exact {c : Config} (hc : c.rounding = .exact) {m : Rat} {k : Nat} {p : Rat}
    (hp : -(k * m) ≤ p) : ∃ j : Nat, wrapUp c m k p = .ok (p + j * m) ∧ 0 ≤ p + j * m ∧ (0 ≤ p ∧ j = 0 ∨ p + j * m < m) := by
  induction k generalizing p with
  | zero =>
    have h0 : 0 ≤ p := by simpa using hp
    exact ⟨0, by simp [wrapUp, h0], by simpa using h0, .inl ⟨h0, rfl⟩⟩
  | succ k ih =>
    by_cases h0 : 0 ≤ p
    · exact ⟨0, by simp [wrapUp, h0], by simpa using h0, .inl ⟨h0, rfl⟩⟩
    · obtain ⟨j, hj, hj0, hj1⟩ := ih (p := p + m) (by push_cast at hp; linarith)
      refine ⟨j + 1, ?_, ?_, .inr ?_⟩
      · simp only [wrapUp, h0, if_false, radd_exact hc, hj]
        push_cast
        ring_nf
      · push_cast
        linarith
      · push_cast
        rcases hj1 with ⟨_, rfl⟩ | hj1
        · push_cast
          linarith
        · linarith

theorem wrapDown_exact {c : Config} (hc : c.rounding = .exact) {m : Rat} {k : Nat} {p : Rat}
    (hp : p < (k + 1) * m) : ∃ j : Nat, wrapDown c m k p = .ok (p - j * m) ∧ p - j * m < m ∧ (p < m ∧ j = 0 ∨ 0 ≤ p - j * m) := by
  induction k generalizing p with
  | zero =>
    have h0 : p < m := by simpa using hp
    exact ⟨0, by simp [wrapDown, h0], by simpa using h0, .inl ⟨h0, rfl⟩⟩
  | succ k ih =>
    by_cases h0 : p < m
    · exact ⟨0, by simp [wrapDown, h0], by simpa using h0, .inl ⟨h0, rfl⟩⟩
    · obtain ⟨j, hj, hj0, hj1⟩ := ih (p := p - m) (by push_cast at hp; linarith)
      refine ⟨j + 1, ?_, ?_, .inr ?_⟩
      · simp only [wrapDown, h0, if_false, rsub_exact hc, hj]
        push_cast
        ring_nf
      · push_cast
        linarith
      · push_cast
        rcases hj1 with ⟨_, rfl⟩ | hj1
        · push_cast
          linarith
        · linarith

/-! ## LFO.WRAP (rule R121) -/

theorem abs_lt_wrapBound (p : Rat) : absReal p + 1 ≤ (wrapBound p : Rat) := by
  have h1 : absReal p ≤ ((⌈absReal p⌉.toNat : Int) : Rat) := by
    rw [Int.toNat_of_nonneg (Int.ceil_nonneg (absReal_nonneg p))]
    exact Int.le_ceil _
  unfold wrapBound
  rw [rat_ceil_eq]
  push_cast at h1 ⊢
  linarith

/-- In exact arithmetic `LFO.WRAP` is the fractional part. -/
theorem lfoWrap_exact {c : Config} (hc : c.rounding = .exact) (p : Rat) : lfoWrap c p = .ok (fracPart p) := by
  have hb := abs_lt_wrapBound p
  have h1 := le_absReal p
  have h2 := neg_le_absReal p
  obtain ⟨j, hj, hj1, hj2⟩ := wrapDown_exact hc (m := 1) (k := wrapBound p) (p := p) (by linarith)
  simp only [mul_one] at hj hj1 hj2
  have hq : -((wrapBound p : Rat) * 1) ≤ p - j := by
    rcases hj2 with ⟨_, rfl⟩ | hj2
    · push_cast; linarith
    · have : (0 : Rat) ≤ wrapBound p := Nat.cast_nonneg _
      linarith
  obtain ⟨i, hi, hi1, hi2⟩ := wrapUp_exact hc (m := 1) hq
  simp only [mul_one] at hi hi1 hi2
  have hlt : p - j + i < 1 := by
    rcases hi2 with ⟨_, rfl⟩ | hi2
    · push_cast; linarith
    · exact hi2
  have : fracPart p = p - j + i := by
    rw [fracPart_eq]
    refine Int.fract_eq_iff.2 ⟨hi1, hlt, (j : Int) - i, ?_⟩
    push_cast
    ring
  rw [lfoWrap, hj]
  show wrapUp c 1 (wrapBound p) (p - j) = _
  rw [hi, this]

/-- On [0, 1) `LFO.WRAP` is the identity, whatever the rounding. -/
theorem lfoWrap_of_phase (c : Config) {p : Rat} (h : IsPhase p) : lfoWrap c p = .ok p := by
  rw [lfoWrap, wrapDown_of_lt c 1 _ h.2]
  exact wrapUp_of_nonneg c 1 _ h.1

/-- What `LFO.WRAP` answers on a nonnegative argument is a canonical phase. -/
theorem lfoWrap_phase {c : Config} (hc : RoundingAdmissible c) {p q : Rat} (hp : 0 ≤ p)
    (h : lfoWrap c p = .ok q) : IsPhase q := by
  unfold lfoWrap at h
  split at h
  · rename_i r hr
    have h0 := wrapDown_nonneg hc hp hr
    rw [wrapUp_of_nonneg c 1 _ h0] at h
    cases h
    exact ⟨h0, wrapDown_ok hr⟩
  · cases h

/-- On [0, 2] `LFO.WRAP` ends, under every admissible rounding. -/
theorem lfoWrap_ends {c : Config} (hc : RoundingAdmissible c) {p : Rat} (h0 : 0 ≤ p) (h2 : p ≤ 2) :
    ∃ q, lfoWrap c p = .ok q ∧ IsPhase q := by
  suffices ∃ q, lfoWrap c p = .ok q from this.imp fun q hq => ⟨hq, lfoWrap_phase hc h0 hq⟩
  suffices ∃ q, wrapDown c 1 (wrapBound p) p = .ok q by
    obtain ⟨q, hq⟩ := this
    exact ⟨q, by rw [lfoWrap, hq]; exact wrapUp_of_nonneg c 1 _ (wrapDown_nonneg hc h0 hq)⟩
  by_cases h1 : p < 1
  · exact ⟨p, wrapDown_of_lt c 1 _ h1⟩
  · have hb : 2 ≤ wrapBound p := by
      have := abs_lt_wrapBound p
      have := le_absReal p
      have : (2 : Rat) ≤ wrapBound p := by linarith
      exact_mod_cast this
    obtain ⟨k, hk⟩ : ∃ k, wrapBound p = k + 2 := ⟨wrapBound p - 2, by omega⟩
    rw [hk]
    simp only [wrapDown, h1, if_false]
    have hr1 : rsub c p 1 ≤ 1 := roundReal_le_one hc (by linarith)
    by_cases h3 : rsub c p 1 < 1
    · exact ⟨_, by rw [if_pos h3]⟩
    · rw [if_neg h3, show rsub c p 1 = 1 by linarith]
      have : rsub c 1 1 = 0 := by
        simpa [rsub] using roundReal_nat hc (n := 0) (by omega)
      exact ⟨0, by rw [this]; exact wrapDown_of_lt c 1 _ one_pos⟩

/-- `LFO.ADVANCE` of a canonical phase by an increment in [0, 1] ends in a canonical phase. -/
theorem lfoAdvance_ends {c : Config} (hc : RoundingAdmissible c) {p inc : Rat} (hp : IsPhase p)
    (h0 : 0 ≤ inc) (h1 : inc ≤ 1) : ∃ q, lfoAdvance c p inc = .ok q ∧ IsPhase q :=
  lfoWrap_ends hc (roundReal_nonneg hc (by linarith [hp.1])) (roundReal_le_two hc (by linarith [hp.2]))

theorem lfoAdvance_phase {c : Config} (hc : RoundingAdmissible c) {p inc q : Rat} (hp : IsPhase p)
    (h0 : 0 ≤ inc) (h : lfoAdvance c p inc = .ok q) : IsPhase q :=
  lfoWrap_phase hc (roundReal_nonneg hc (by linarith [hp.1])) h

theorem lfoAdvance_exact {c : Config} (hc : c.rounding = .exact) (p inc : Rat) :
    lfoAdvance c p inc = .ok (fracPart (p + inc)) := by
  rw [lfoAdvance, radd_exact hc, lfoWrap_exact hc]

/-- The effective phase of a canonical phase is a canonical phase (rule R128). -/
theorem effectivePhase_ends {c : Config} (hc : RoundingAdmissible c) (right : Bool) {lp : Rat} (h : IsPhase lp) :
    ∃ pe, effectivePhase c right lp = .ok pe ∧ IsPhase pe := by
  cases right with
  | false => exact ⟨lp, rfl, h⟩
  | true =>
    exact lfoWrap_ends hc (roundReal_nonneg hc (by linarith [h.1])) (roundReal_le_two hc (by linarith [h.2]))

theorem effectivePhase_exact {c : Config} (hc : c.rounding = .exact) (right : Bool) (lp : Rat) :
    effectivePhase c right lp = .ok (if right then fracPart (lp + 1 / 2) else lp) := by
  cases right with
  | false => rfl
  | true => simp only [effectivePhase, if_true, radd_exact hc, lfoWrap_exact hc]

/-! ## The read position of DL.READI (rule R113) -/

theorem readBound_ge {cap : Nat} (hcap : 0 < cap) (d : Rat) :
    absReal d + cap ≤ (readBound cap d : Rat) * cap := by
  have hc : (0 : Rat) < cap := by exact_mod_cast hcap
  have h1 : absReal d / cap ≤ ((⌈absReal d / cap⌉.toNat : Int) : Rat) := by
    rw [Int.toNat_of_nonneg (Int.ceil_nonneg (div_nonneg (absReal_nonneg d) hc.le))]
    exact Int.le_ceil _
  unfold readBound
  rw [rat_ceil_eq]
  push_cast at h1 ⊢
  rw [div_le_iff₀ hc] at h1
  linarith

/-- In exact arithmetic the read position is `WIDX - d` moved into [0, CAP) by a whole number of
capacities, for every `d`. -/
theorem readPosition_exact {c : Config} (hc : c.rounding = .exact) {cap widx : Nat} (hw : widx < cap) (d : Rat) :
    ∃ pos, readPosition c cap widx d = .ok pos ∧ 0 ≤ pos ∧ pos < cap ∧
      ∃ z : Int, pos = (widx : Rat) - d + z * cap := by
  have hcap : 0 < cap := by omega
  have hb := readBound_ge hcap d
  have hc0 : (0 : Rat) < cap := by exact_mod_cast hcap
  have hw0 : (0 : Rat) ≤ widx := Nat.cast_nonneg _
  have hw1 : (widx : Rat) < cap := by exact_mod_cast hw
  have h1 := le_absReal d
  have h2 := neg_le_absReal d
  obtain ⟨j, hj, hj1, hj2⟩ := wrapUp_exact hc (m := cap) (k := readBound cap d) (p := (widx : Rat) - d) (by linarith)
  have hlt : (widx : Rat) - d + j * cap < (readBound cap d + 1) * cap := by
    rcases hj2 with ⟨_, rfl⟩ | hj2
    · push_cast; linarith
    · nlinarith [absReal_nonneg d]
  obtain ⟨i, hi, hi1, hi2⟩ := wrapDown_exact hc hlt
  have hi0 : 0 ≤ (widx : Rat) - d + j * cap - i * cap := by
    rcases hi2 with ⟨_, rfl⟩ | hi2
    · push_cast; linarith
    · exact hi2
  refine ⟨_, ?_, hi0, hi1, (j : Int) - i, by push_cast; ring⟩
  rw [readPosition, rsub_exact hc, hj]
  exact hi

/-- Inside the safe band `0 <= d <= CAP - 1` (rule R115) the read position is found, under every
admissible rounding. -/
theorem readPosition_band {c : Config} (hc : RoundingAdmissible c) {cap widx : Nat} (hw : widx < cap)
    (hcap : cap ≤ 16777216) {d : Rat} (h0 : 0 ≤ d) (h1 : d ≤ (cap : Rat) - 1) :
    ∃ pos, readPosition c cap widx d = .ok pos ∧ 0 ≤ pos ∧ pos < cap := by
  have hc0 : (0 : Rat) < cap := by exact_mod_cast (show 0 < cap by omega)
  have hw0 : (0 : Rat) ≤ widx := Nat.cast_nonneg _
  have hw1 : (widx : Rat) ≤ (cap : Rat) - 1 := by
    have : (widx : Rat) + 1 ≤ cap := by exact_mod_cast hw
    linarith
  obtain ⟨k, hk⟩ : ∃ k, readBound cap d = k + 1 := ⟨_, rfl⟩
  have hp_le : rsub c widx d ≤ (widx : Rat) := roundReal_le_nat hc (by omega) (by linarith)
  have hp_ge : -((cap : Rat) - 1) ≤ rsub c widx d := by
    have := hc.monotone (((-((cap : Int) - 1) : Int)) : Rat) ((widx : Rat) - d) (by push_cast; linarith)
    rw [roundReal_int hc (by omega) (by omega)] at this
    push_cast at this
    exact this
  have hup : ∃ p, wrapUp c cap (readBound cap d) (rsub c widx d) = .ok p ∧ p ≤ cap := by
    by_cases hn : 0 ≤ rsub c widx d
    · exact ⟨_, wrapUp_of_nonneg c _ _ hn, by linarith⟩
    · rw [hk]
      simp only [wrapUp, hn, if_false]
      have hq0 : 0 ≤ radd c (rsub c widx d) cap := roundReal_nonneg hc (by linarith)
      exact ⟨_, wrapUp_of_nonneg c _ _ hq0, roundReal_le_nat hc (by omega) (by linarith)⟩
  obtain ⟨p, hp, hpc⟩ := hup
  have hp0 := wrapUp_ok hp
  have hdown : ∃ q, wrapDown c cap (readBound cap d) p = .ok q := by
    by_cases hn : p < cap
    · exact ⟨_, wrapDown_of_lt c _ _ hn⟩
    · rw [hk]
      simp only [wrapDown, hn, if_false]
      have : rsub c p cap = 0 := by
        have hpe : p = cap := le_antisymm hpc (not_lt.1 hn)
        rw [hpe]
        simpa [rsub] using roundReal_nat hc (n := 0) (by omega)
      rw [this]
      exact ⟨0, wrapDown_of_lt c _ _ hc0⟩
  obtain ⟨q, hq⟩ := hdown
  refine ⟨q, ?_, wrapDown_nonneg hc hp0 hq, wrapDown_ok hq⟩
  rw [readPosition, hp]
  exact hq

end Sys2Proof.Machine
end

