-- ==== Sys2Proof/Laws/DelayLine.lean ====
section
/-! SUPPORT. The delay-line primitives (rules R110 to R118): what each can answer. -/

namespace Sys2Proof.Machine

/-- `DL.STORE` answers exactly when `WIDX` is a word of the line, and then only writes that word. -/
theorem dlStore_ok {c : Slot} {v : Sample} {s t : State} (h : dlStore c v s = .ok t) :
    (s.inst c).widx.toNat < (s.inst c).cap.toNat ∧
      t = s.setDly c (Memory.writeWord (s.dly c) (s.inst c).widx.toNat v) := by
  unfold dlStore at h
  split at h
  · rename_i hw
    cases h
    exact ⟨hw, rfl⟩
  · cases h

theorem dlStore_of_lt {c : Slot} (v : Sample) {s : State} (h : (s.inst c).widx.toNat < (s.inst c).cap.toNat) :
    dlStore c v s = .ok (s.setDly c (Memory.writeWord (s.dly c) (s.inst c).widx.toNat v)) := if_pos h

/-- The index after `DL.ADVANCE`. -/
def nextIndex (i : Inst) : BitVec 24 := BitVec.ofNat 24 ((i.widx.toNat + 1) % i.cap.toNat)

theorem dlAdvance_eq (c : Slot) (s : State) :
    dlAdvance c s = s.setInst c { s.inst c with widx := nextIndex (s.inst c) } := rfl

theorem nextIndex_toNat {i : Inst} (h : i.widx.toNat < i.cap.toNat) :
    (nextIndex i).toNat = (i.widx.toNat + 1) % i.cap.toNat := by
  have := i.cap.isLt
  have := Nat.mod_lt (i.widx.toNat + 1) (show 0 < i.cap.toNat by omega)
  rw [nextIndex, BitVec.toNat_ofNat]
  exact Nat.mod_eq_of_lt (by omega)

theorem nextIndex_lt {i : Inst} (h : i.widx.toNat < i.cap.toNat) : (nextIndex i).toNat < i.cap.toNat := by
  rw [nextIndex_toNat h]
  exact Nat.mod_lt _ (by omega)

/-- What `DL.READI` answers: the interpolation at the wrapped read position. -/
theorem dlReadI_ok {c : Slot} {d r : Rat} {s : State} (h : dlReadI c d s = .ok r) :
    ∃ pos, readPosition s.cfg (s.inst c).cap.toNat (s.inst c).widx.toNat d = .ok pos ∧
      r = readAt s.cfg (s.dly c) (s.inst c).cap.toNat pos := by
  unfold dlReadI at h
  split at h
  · rename_i pos hp
    cases h
    exact ⟨pos, hp, rfl⟩
  · cases h

theorem dlReadI_of_position {c : Slot} {d pos : Rat} {s : State}
    (h : readPosition s.cfg (s.inst c).cap.toNat (s.inst c).widx.toNat d = .ok pos) :
    dlReadI c d s = .ok (readAt s.cfg (s.dly c) (s.inst c).cap.toNat pos) := by
  rw [dlReadI, h]

/-- In exact arithmetic `DL.READI` answers for every delay. -/
theorem dlReadI_exact_ends {c : Slot} (d : Rat) {s : State} (hc : s.cfg.rounding = .exact)
    (h : (s.inst c).widx.toNat < (s.inst c).cap.toNat) : ∃ r, dlReadI c d s = .ok r := by
  obtain ⟨pos, hp, -⟩ := readPosition_exact hc h d
  exact ⟨_, dlReadI_of_position hp⟩

/-- Inside the safe band `DL.READI` answers under every admissible rounding. -/
theorem dlReadI_band_ends {c : Slot} {d : Rat} {s : State} (hc : RoundingAdmissible s.cfg)
    (h : (s.inst c).widx.toNat < (s.inst c).cap.toNat) (h0 : 0 ≤ d) (h1 : d ≤ ((s.inst c).cap.toNat : Rat) - 1) :
    ∃ r, dlReadI c d s = .ok r := by
  obtain ⟨pos, hp, -⟩ := readPosition_band hc h (by have := (s.inst c).cap.isLt; omega) h0 h1
  exact ⟨_, dlReadI_of_position hp⟩

theorem sample_toInt_mem (v : Sample) : -32768 ≤ v.toInt ∧ v.toInt ≤ 32767 := by
  have h1 := BitVec.le_toInt v
  have h2 := BitVec.toInt_lt (x := v)
  constructor <;> omega

/-- Interpolation with a fraction in [0, 1] stays between its two samples' range, in exact arithmetic. -/
theorem interpolate_mem {c : Config} (hc : c.rounding = .exact) {frac : Rat} (h0 : 0 ≤ frac) (h1 : frac ≤ 1)
    {a b : Int} (ha : -32768 ≤ a ∧ a ≤ 32767) (hb : -32768 ≤ b ∧ b ≤ 32767) :
    -32768 ≤ interpolate c frac a b ∧ interpolate c frac a b ≤ 32767 := by
  rw [interpolate, radd_exact hc, rmul_exact hc, rsub_exact hc]
  have ha0 : (-32768 : Rat) ≤ a := by exact_mod_cast ha.1
  have ha1 : (a : Rat) ≤ 32767 := by exact_mod_cast ha.2
  have hb0 : (-32768 : Rat) ≤ b := by exact_mod_cast hb.1
  have hb1 : (b : Rat) ≤ 32767 := by exact_mod_cast hb.2
  constructor <;> nlinarith

/-- In exact arithmetic what `DL.READI` answers lies in the sample range. -/
theorem dlReadI_mem {c : Slot} {d r : Rat} {s : State} (hc : s.cfg.rounding = .exact)
    (h : (s.inst c).widx.toNat < (s.inst c).cap.toNat) (hr : dlReadI c d s = .ok r) : -32768 ≤ r ∧ r ≤ 32767 := by
  obtain ⟨pos, hp, h0, -, -⟩ := readPosition_exact hc h d
  rw [dlReadI_of_position hp] at hr
  cases hr
  have hbase : ((pos.floor.toNat : Nat) : Rat) = ⌊pos⌋ := by
    have : ((pos.floor.toNat : Nat) : Int) = ⌊pos⌋ := by
      rw [rat_floor_eq]; exact Int.toNat_of_nonneg (Int.floor_nonneg.2 h0)
    exact_mod_cast this
  refine interpolate_mem hc ?_ ?_ (sample_toInt_mem _) (sample_toInt_mem _)
  · rw [rsub_exact hc, hbase]
    linarith [Int.floor_le pos]
  · rw [rsub_exact hc, hbase]
    linarith [Int.lt_floor_add_one pos]

end Sys2Proof.Machine
end

