-- ==== Sys2Proof/Laws/Encoding.lean ====
section
/-! SUPPORT. The fields of an encoded word (rules R82, R85 to R92). -/

namespace Sys2Proof

/-- Bit `k` of an encoded word, field by field (rule R82). -/
theorem commandWord_bit (opc : BitVec 4) (ch : Slot) (opd : Operand) (k : Nat) :
    (commandWord opc ch opd).getLsbD k =
      if k < 32 then opd.getLsbD k
      else if k < 59 then false
      else if k = 59 then bitOfSlot ch
      else opc.getLsbD (k - 60) := by
  unfold commandWord
  rw [BitVec.getLsbD_append, BitVec.getLsbD_append, BitVec.getLsbD_append]
  by_cases h1 : k < 32
  · simp [h1]
  · by_cases h2 : k < 59
    · simp [h1, h2, show k - 32 < 27 by omega]
    · by_cases h3 : k = 59
      · subst h3
        simp
      · simp [h1, h2, h3, show ¬ k - 32 < 27 by omega, show ¬ k - 32 - 27 < 1 by omega,
          show k - 32 - 27 - 1 = k - 60 by omega]

/-- `OPC` of an encoded word. -/
theorem opcOf_commandWord (opc : BitVec 4) (ch : Slot) (opd : Operand) : opcOf (commandWord opc ch opd) = opc := by
  apply BitVec.eq_of_getLsbD_eq
  intro i hi
  rw [opcOf, BitVec.getLsbD_extractLsb', commandWord_bit, if_neg (by omega), if_neg (by omega), if_neg (by omega)]
  simp [hi]

/-- `RSV` of an encoded word is zero (rule R82). -/
theorem rsvOf_commandWord (opc : BitVec 4) (ch : Slot) (opd : Operand) : rsvOf (commandWord opc ch opd) = 0 := by
  apply BitVec.eq_of_getLsbD_eq
  intro i hi
  rw [rsvOf, BitVec.getLsbD_extractLsb', commandWord_bit, if_neg (by omega), if_pos (by omega)]
  simp

/-- `OPD` of an encoded word. -/
theorem opdOf_commandWord (opc : BitVec 4) (ch : Slot) (opd : Operand) : opdOf (commandWord opc ch opd) = opd := by
  apply BitVec.eq_of_getLsbD_eq
  intro i hi
  rw [opdOf, BitVec.getLsbD_extractLsb', commandWord_bit, if_pos (by omega)]
  simp [hi]

/-- `CH` of an encoded word. -/
theorem chOf_commandWord (opc : BitVec 4) (ch : Slot) (opd : Operand) : chOf (commandWord opc ch opd) = ch := by
  rw [chOf, commandWord_bit, if_neg (by omega), if_neg (by omega), if_pos rfl]
  cases ch <;> rfl

end Sys2Proof
end

