-- ==== Sys2Proof/Laws/Engine.lean ====
section
/-! SUPPORT. The sample loops of the two engines: induction over the loop, and what one sample and one
block can do. -/

namespace Sys2Proof.Machine

/-! ## The loop -/

/-- What holds before the loop and is kept by each sample holds after it. -/
theorem forSamples_invariant {σ : Type} {f : Nat → σ → Except Fault σ} {P : Nat → σ → Prop} {N : Nat} {x y : σ}
    (h0 : P 0 x) (hs : ∀ n y z, n < N → P n y → f n y = .ok z → P (n + 1) z)
    (h : forSamples f N x = .ok y) : P N y := by
  induction N generalizing y with
  | zero => cases h; exact h0
  | succ N ih =>
    simp only [forSamples] at h
    split at h
    · rename_i z hz
      exact hs N z y (by omega) (ih (fun n a b hn => hs n a b (by omega)) hz) h
    · cases h

/-- If every sample answers and keeps the invariant, so does the loop. -/
theorem forSamples_ends {σ : Type} {f : Nat → σ → Except Fault σ} {P : Nat → σ → Prop} {N : Nat} {x : σ}
    (h0 : P 0 x) (hs : ∀ n y, n < N → P n y → ∃ z, f n y = .ok z ∧ P (n + 1) z) :
    ∃ y, forSamples f N x = .ok y ∧ P N y := by
  induction N with
  | zero => exact ⟨x, rfl, h0⟩
  | succ N ih =>
    obtain ⟨y, hy, hP⟩ := ih fun n a hn => hs n a (by omega)
    obtain ⟨z, hz, hP'⟩ := hs N y (by omega) hP
    exact ⟨z, by simp only [forSamples, hy, hz], hP'⟩

/-! ## One sample of PROC1 (rule R157) -/

/-- The state in which the taps of sample `n` are read: the input stored, nothing else changed. -/
def v1Stored (n : Nat) (s : State) : State :=
  s.setDly .s0 (Memory.writeWord s.dly0 s.inst0.widx.toNat (s.blkWord .s0 n))

/-- The state after sample `n` whose taps read `rl` and `rr` and whose phases become `pl` and `pr`. -/
def v1After (n : Nat) (rl rr pl pr : Rat) (s : State) : State :=
  { s with
    inst0 := { s.inst0 with widx := nextIndex s.inst0 }
    v1 := { s.v1 with phL := pl, phR := pr }
    dly0 := Memory.writeWord s.dly0 s.inst0.widx.toNat (s.blkWord .s0 n)
    blk0 := Memory.writeWord s.blk0 n
      (mix8 (s.blkWord .s0 n) (wetAverage s.cfg rl rr) s.v1.wet256 s.v1.dry256) }

/-- The four results a sample of `PROC1` needs: two reads and two advances. -/
structure V1Reads (n : Nat) (s : State) (rl rr pl pr : Rat) : Prop where
  widx_lt : s.inst0.widx.toNat < s.inst0.cap.toNat
  left    : dlReadI .s0 (v1Delay (v1Stored n s) (tri s.cfg s.v1.phL)) (v1Stored n s) = .ok rl
  right   : dlReadI .s0 (v1Delay (v1Stored n s) (tri s.cfg s.v1.phR)) (v1Stored n s) = .ok rr
  advL    : lfoAdvance s.cfg s.v1.phL s.inst0.phinc = .ok pl
  advR    : lfoAdvance s.cfg s.v1.phR s.inst0.phinc = .ok pr

theorem v1Sample_of_reads {n : Nat} {s : State} {rl rr pl pr : Rat} (h : V1Reads n s rl rr pl pr) :
    v1Sample n s = .ok (v1After n rl rr pl pr s) := by
  obtain ⟨hw, hl, hr, hpl, hpr⟩ := h
  unfold v1Sample
  rw [dlStore_of_lt (c := .s0) (s := s) _ hw]
  have hst : s.setDly .s0 (Memory.writeWord (s.dly .s0) (s.inst .s0).widx.toNat (s.blkWord .s0 n)) = v1Stored n s := rfl
  simp only [hst]
  have hwet : v1Wet (v1Stored n s) = .ok (wetAverage s.cfg rl rr) := by
    unfold v1Wet
    have h1 : (v1Stored n s).cfg = s.cfg := rfl
    have h2 : (v1Stored n s).v1 = s.v1 := rfl
    rw [h1, h2, hl, hr]
  rw [hwet]
  show v1Advance _ = _
  unfold v1Advance
  have h1 : ∀ y, (dlAdvance .s0 ((v1Stored n s).setBlkWord .s0 n y)).cfg = s.cfg := fun _ => rfl
  have h2 : ∀ y, (dlAdvance .s0 ((v1Stored n s).setBlkWord .s0 n y)).v1 = s.v1 := fun _ => rfl
  have h3 : ∀ y, (dlAdvance .s0 ((v1Stored n s).setBlkWord .s0 n y)).inst0.phinc = s.inst0.phinc := fun _ => rfl
  rw [h1, h2, h3, hpl, hpr]
  rfl

theorem v1Sample_ok {n : Nat} {s t : State} (h : v1Sample n s = .ok t) :
    ∃ rl rr pl pr, V1Reads n s rl rr pl pr ∧ t = v1After n rl rr pl pr s := by
  suffices ∃ rl rr pl pr, V1Reads n s rl rr pl pr by
    obtain ⟨rl, rr, pl, pr, hr⟩ := this
    exact ⟨rl, rr, pl, pr, hr, by rw [v1Sample_of_reads hr] at h; cases h; rfl⟩
  unfold v1Sample at h
  split at h
  · cases h
  · rename_i u hu
    obtain ⟨hw, rfl⟩ := dlStore_ok hu
    split at h
    · cases h
    · rename_i w hwet
      unfold v1Wet at hwet
      split at hwet
      · rename_i rl rr hl hr
        unfold v1Advance at h
        dsimp only at h
        split at h
        · rename_i pl pr hpl hpr
          exact ⟨rl, rr, pl, pr, hw, hl, hr, hpl, hpr⟩
        · cases h
        · cases h
      · cases hwet
      · cases hwet

/-! ## One sample of PROC2 (rule R180) -/

/-- The new `PRE_Y` of sample `n` (step 1). -/
def v2Pre (c : Slot) (n : Nat) (s : State) : Rat :=
  onepole s.cfg (s.inst c).preY s.cfg.aPre (s.blkWord c n).toInt

/-- The state in which sample `n` is read: pre-filtered and stored. -/
def v2Stored (c : Slot) (n : Nat) (s : State) : State :=
  (s.setInst c { s.inst c with preY := v2Pre c n s }).setDly c
    (Memory.writeWord (s.dly c) (s.inst c).widx.toNat (sampleOf (toInt (v2Pre c n s))))

/-- The state after sample `n` of slot `c` whose read gives `r`. -/
def v2After (c : Slot) (n : Nat) (r : Rat) (s : State) : State :=
  ((s.setInst c { s.inst c with
      widx := nextIndex (s.inst c)
      preY := v2Pre c n s
      postY := onepole s.cfg (s.inst c).postY s.cfg.aPost r }).setDly c
    (Memory.writeWord (s.dly c) (s.inst c).widx.toNat (sampleOf (toInt (v2Pre c n s))))).setBlk c
    (Memory.writeWord (s.blk c) n
      (sampleOf (toInt (softclip s.cfg (onepole s.cfg (s.inst c).postY s.cfg.aPost r)))))

/-- The results a sample of `PROC2` needs: the effective phase, the read and the advance. -/
structure V2Reads (c : Slot) (n : Nat) (s : State) (lp pe r lp' : Rat) : Prop where
  widx_lt : (s.inst c).widx.toNat < (s.inst c).cap.toNat
  phase   : effectivePhase s.cfg (s.inst c).isRight lp = .ok pe
  read    : dlReadI c (v2Delay s.cfg (s.inst c) (lfoVal2 s.cfg (s.inst c).mode pe)) (v2Stored c n s) = .ok r
  advance : lfoAdvance s.cfg lp (s.inst c).phinc = .ok lp'

theorem v2Sample_of_reads {c : Slot} {n : Nat} {s : State} {lp pe r lp' : Rat} (h : V2Reads c n s lp pe r lp') :
    v2Sample c n (s, lp) = .ok (v2After c n r s, lp') := by
  obtain ⟨hw, hpe, hr, hlp⟩ := h
  have hst : dlStore c (sampleOf (toInt ((v2Prefilter c (s.blkWord c n) s).inst c).preY))
      (v2Prefilter c (s.blkWord c n) s) = .ok (v2Stored c n s) := by
    rw [dlStore_of_lt]
    · cases c <;> rfl
    · cases c <;> exact hw
  have hrd : v2Read c lp (v2Stored c n s) = .ok r := by
    unfold v2Read
    have h1 : (v2Stored c n s).cfg = s.cfg := by simp [v2Stored]
    have h2 : ((v2Stored c n s).inst c).isRight = (s.inst c).isRight := by simp [v2Stored]
    have h3 : v2Delay s.cfg ((v2Stored c n s).inst c) = v2Delay s.cfg (s.inst c) := by
      funext v; simp [v2Stored, v2Delay]
    have h4 : ((v2Stored c n s).inst c).mode = (s.inst c).mode := by simp [v2Stored]
    rw [h1, h2, hpe, h3, h4]
    exact hr
  have hcfg : (v2Stored c n s).cfg = s.cfg := by simp [v2Stored]
  have hinc : ((v2Stored c n s).inst c).phinc = (s.inst c).phinc := by simp [v2Stored]
  unfold v2Sample
  simp only [hst, hrd, hcfg, hinc, hlp]
  cases c <;> rfl

theorem v2Sample_ok {c : Slot} {n : Nat} {s t : State} {lp lp' : Rat} (h : v2Sample c n (s, lp) = .ok (t, lp')) :
    ∃ pe r, V2Reads c n s lp pe r lp' ∧ t = v2After c n r s := by
  suffices ∃ pe r, V2Reads c n s lp pe r lp' by
    obtain ⟨pe, r, hr⟩ := this
    refine ⟨pe, r, hr, ?_⟩
    rw [v2Sample_of_reads hr] at h
    cases h
    rfl
  unfold v2Sample at h
  simp only at h
  split at h
  · cases h
  · rename_i u hu
    obtain ⟨hw, hu⟩ := dlStore_ok hu
    have hu' : u = v2Stored c n s := by rw [hu]; cases c <;> rfl
    subst hu'
    split at h
    · rename_i r lp2 hr hlp
      cases h
      unfold v2Read at hr
      split at hr
      · rename_i pe hpe
        have h1 : (v2Stored c n s).cfg = s.cfg := by simp [v2Stored]
        have h2 : ((v2Stored c n s).inst c).isRight = (s.inst c).isRight := by simp [v2Stored]
        have h3 : v2Delay s.cfg ((v2Stored c n s).inst c) = v2Delay s.cfg (s.inst c) := by
          funext v; simp [v2Stored, v2Delay]
        have h4 : ((v2Stored c n s).inst c).mode = (s.inst c).mode := by simp [v2Stored]
        have h5 : ((v2Stored c n s).inst c).phinc = (s.inst c).phinc := by simp [v2Stored]
        rw [h1, h2] at hpe
        rw [h1, h3, h4] at hr
        rw [h1, h5] at hlp
        refine ⟨pe, r, ?_, hpe, hr, hlp⟩
        cases c <;> exact hw
      · cases hr
    · cases h
    · cases h

end Sys2Proof.Machine
end

