-- ==== Sys2Proof/Laws/Exact.lean ====
section
/-! SUPPORT. The primitives in exact arithmetic: each in the closed form that `Sys2Proof/Safety.lean` writes
the sample recurrences with. -/

namespace Sys2Proof.Machine

/-- The clamp of rule R16 as a maximum of a minimum. -/
theorem limit_eq {x lo hi : Rat} (h : lo ≤ hi) : clampReal x lo hi = limit x lo hi := by
  unfold clampReal limit
  split_ifs with h1 h2
  · rw [min_eq_left (by linarith), max_eq_left (by linarith)]
  · rw [min_eq_right (by linarith), max_eq_right (by linarith)]
  · rw [min_eq_left (by linarith), max_eq_right (by linarith)]

/-- `DL.READI` in exact arithmetic (rule R113): the interpolation at the read position modulo the capacity. -/
theorem dlReadI_exact {c : Slot} {s : State} (hx : s.cfg.rounding = .exact) (hw : (s.inst c).widx.toNat <
    (s.inst c).cap.toNat) (d : Rat) :
    dlReadI c d s = .ok (tapValue (s.dly c) (s.inst c).cap.toNat (s.inst c).widx.toNat d) := by
  obtain ⟨pos, hp, h0, h1, k, hk⟩ := readPosition_exact hx hw d
  rw [dlReadI_of_position hp]
  have hc : (0 : Rat) < (s.inst c).cap.toNat := by exact_mod_cast (show 0 < (s.inst c).cap.toNat by omega)
  have hpos : pos = (s.inst c).cap.toNat * fracPart (((s.inst c).widx.toNat - d) / (s.inst c).cap.toNat) := by
    have e : ((s.inst c).widx.toNat - d) / (s.inst c).cap.toNat = pos / (s.inst c).cap.toNat + ((-k : Int) : Rat)
        := by
      push_cast; field_simp; linarith
    rw [e, fracPart_eq, Int.fract_add_intCast, Int.fract_eq_self.2 ⟨div_nonneg h0 hc.le, (div_lt_one hc).2 h1⟩]
    field_simp
  have hbase : ((pos.floor.toNat : Nat) : Rat) = pos.floor := by
    have : ((pos.floor.toNat : Nat) : Int) = ⌊pos⌋ := by
      rw [rat_floor_eq]; exact Int.toNat_of_nonneg (Int.floor_nonneg.2 h0)
    exact_mod_cast this
  have e : tapValue (s.dly c) (s.inst c).cap.toNat (s.inst c).widx.toNat d =
      (Memory.readWord (s.dly c) pos.floor.toNat).toInt + fracPart pos *
      (((Memory.readWord (s.dly c) ((pos.floor.toNat+1) % (s.inst c).cap.toNat)).toInt : Rat) - (Memory.readWord
          (s.dly c) pos.floor.toNat).toInt) := by
    rw [tapValue, ← hpos]
  rw [e]
  simp only [readAt, interpolate, radd_exact hx, rmul_exact hx, rsub_exact hx, hbase, fracPart]

/-- `TRI` in exact arithmetic (rule R126). -/
theorem tri_exact {c : Config} (hx : c.rounding = .exact) (p : Rat) : tri c p = triangleExact p := by
  simp only [tri, triangleExact, rsub_exact hx, rmul_exact hx]

/-- `TOINT` is truncation toward zero (rule R140). -/
theorem toInt_eq (x : Rat) : toInt x = truncExact x := by
  unfold toInt truncExact
  rw [rat_floor_eq, rat_floor_eq, Int.floor_neg, neg_neg]

/-- `clamp16` is a minimum and a maximum (rule R141). -/
theorem clamp16_eq (v : Int) : clamp16 v = max (-32768) (min v 32767) := by
  unfold clamp16 clampInt
  split_ifs <;> omega

/-- `clamp16(TOINT(x))` as a sample (rules R138, R143). -/
theorem sampleOf_toInt (x : Rat) : sampleOf (toInt x) = sampleExact x := by
  rw [sampleOf, clamp16_eq, toInt_eq, sampleExact]

/-- Truncation of a value in the sample range stays in it (rule R140). -/
theorem toInt_range {x : Rat} (h0 : -32768 ≤ x) (h1 : x ≤ 32767) : -32768 ≤ toInt x ∧ toInt x ≤ 32767 :=
  toInt_mem (by norm_num) (by norm_num) (by exact_mod_cast h0) (by exact_mod_cast h1)

/-- `SOFTCLIP` in exact arithmetic (rule R142). -/
theorem softclip_exact {c : Config} (hx : c.rounding = .exact) (ht : 0 < c.satT) (x : Rat) : softclip c x
    = softclipExact c x := by
  unfold softclip softclipExact absReal signReal
  simp only [rmul_exact hx, radd_exact hx, rsub_exact hx]
  split_ifs <;> linarith

/-- `LFOVAL2` in exact arithmetic (rules R125, R129, R131). -/
theorem lfoVal2_exact {c : Config} (hx : c.rounding = .exact) (m p) : lfoVal2 c m p = if m = .combined then limit
    (triangle01Exact p + beatAt c p) 0 1 else triangle01Exact p := by
  have : tri01 c p = triangle01Exact p := by simp only [tri01, triangle01Exact, rsub_exact hx, rmul_exact hx]
  unfold lfoVal2 composite clamp01
  rw [limit_eq (by norm_num), radd_exact hx, this]

/-- `ONEPOLE` in exact arithmetic (rule R135). -/
theorem onepole_exact {c : Config} (hx : c.rounding = .exact) (y a x : Rat) :
    onepole c y a x = y + a * (x - y) := by
  rw [onepole, radd_exact hx, rmul_exact hx, rsub_exact hx]

/-- The fractional part of a sum depends on the fractional part of a term. -/
theorem fracPart_add (x y : Rat) : fracPart (fracPart x + y) = fracPart (x + y) := by
  simp only [fracPart_eq]
  rw [← Int.self_sub_floor x, show x - ⌊x⌋ + y = x + y - ((⌊x⌋ : Int) : Rat) by ring, Int.fract_sub_intCast]

end Sys2Proof.Machine
end

