-- ==== Sys2Proof/Laws/Latch.lean ====
section
/-! SUPPORT. What each latch operation can do (rules R196 to R198). -/

namespace Sys2Proof.Machine

/-- `LATCH.BEGIN` opens a tick or joins the one that is open (rule R196). -/
theorem latchBegin_cases (l : Latch) :
    (l.valid = true ∧ latchBegin l = l) ∨
      (l.valid = false ∧ latchBegin l = { l with start := l.phase, valid := true, count := 0, ready := false }) := by
  unfold latchBegin
  cases h : l.valid
  · exact .inr ⟨rfl, by simp⟩
  · exact .inl ⟨rfl, by simp⟩

theorem latchBegin_valid (l : Latch) : (latchBegin l).valid = true := by
  rcases latchBegin_cases l with ⟨h, e⟩ | ⟨-, e⟩
  · rw [e, h]
  · rw [e]

theorem latchBegin_phase (l : Latch) : (latchBegin l).phase = l.phase := by
  rcases latchBegin_cases l with ⟨-, e⟩ | ⟨-, e⟩ <;> rw [e]

/-- Publication writes `END` and `READY`, for the primary alone (rule R197). -/
theorem latchPublish_cases (right publish : Bool) (lp : Rat) (l : Latch) :
    (publish = true ∧ right = false ∧ latchPublish right publish lp l = { l with endPh := lp, ready := true }) ∨
      ((publish = false ∨ right = true) ∧ latchPublish right publish lp l = l) := by
  cases publish <;> cases right <;> simp [latchPublish]

/-- The count either commits and invalidates or goes up by one (rule R198). -/
theorem latchCount_cases (l : Latch) :
    (1 ≤ l.count.toNat ∧ latchCount l =
        { l with phase := if l.ready then l.endPh else l.phase, valid := false, count := 0, ready := false }) ∨
      (l.count.toNat = 0 ∧ latchCount l = { l with count := 1 }) := by
  unfold latchCount
  by_cases h : 2 ≤ l.count.toNat + 1
  · exact .inl ⟨by omega, if_pos h⟩
  · have h0 : l.count.toNat = 0 := by omega
    exact .inr ⟨h0, by rw [if_neg h, h0]; rfl⟩

/-- `LATCH.BEGIN` keeps the latch well-formed. -/
theorem latchBegin_ok {l : Latch} (h : LatchOk l) : LatchOk (latchBegin l) := by
  unfold latchBegin; split
  · exact h
  · exact ⟨h.phase_ok, h.phase_ok, h.end_ok, by simp, fun h => by simp at h⟩

/-- `LATCH.END` keeps the latch well-formed. -/
theorem latchEnd_ok {l : Latch} (h : LatchOk l) (hv : l.valid = true) (r p : Bool) {lp : Rat} (hp : IsPhase lp)
    : LatchOk (latchEnd r p lp l) := by
  have hp' : LatchOk (latchPublish r p lp l) ∧ (latchPublish r p lp l).valid = true := by
    unfold latchPublish; split
    · exact ⟨⟨h.phase_ok, h.start_ok, hp, h.count_le, fun hh => by simp [hv] at hh⟩, hv⟩
    · exact ⟨h, hv⟩
  unfold latchEnd
  generalize latchPublish r p lp l = m at *
  obtain ⟨hm, hmv⟩ := hp'
  unfold latchCount; split
  · refine ⟨?_, hm.start_ok, hm.end_ok, by simp, fun _ => ⟨rfl, rfl⟩⟩
    dsimp only; split
    · exact hm.end_ok
    · exact hm.phase_ok
  · rename_i hc
    refine ⟨hm.phase_ok, hm.start_ok, hm.end_ok, ?_, fun hh => ?_⟩
    · show (BitVec.ofNat 2 (m.count.toNat + 1)).toNat ≤ 1
      rw [BitVec.toNat_ofNat]; omega
    · simp [hmv] at hh

end Sys2Proof.Machine
end

