-- ==== Sys2Proof/Laws/PerInstr.lean ====
section
/-! SUPPORT. The statements made of every command, one lemma per constructor. -/

namespace Sys2Proof.Laws.ReservedBits

/-- Rule R82: the reserved field of an encoded command is zero. -/
def Statement (i : Instr) : Prop := rsvOf (encode i) = 0

theorem init1 (len : BitVec 24) (p0 p1 : Bool) : Statement (.init1 len p0 p1) := rsvOf_commandWord _ _ _
theorem init2 (ch : Slot) (len : BitVec 24) (p0 right : Bool) : Statement (.init2 ch len p0 right) :=
  rsvOf_commandWord _ _ _
theorem proc1 (inValid : Bool) : Statement (.proc1 inValid) := rsvOf_commandWord _ _ _
theorem proc2 (ch : Slot) (inValid : Bool) : Statement (.proc2 ch inValid) := rsvOf_commandWord _ _ _
theorem setrate1 (q : Operand) : Statement (.setrate1 q) := rsvOf_commandWord _ _ _
theorem setrate2 (ch : Slot) (q : Operand) : Statement (.setrate2 ch q) := rsvOf_commandWord _ _ _
theorem setdepth1 (q : Operand) : Statement (.setdepth1 q) := rsvOf_commandWord _ _ _
theorem setdepth2 (ch : Slot) (q : Operand) : Statement (.setdepth2 ch q) := rsvOf_commandWord _ _ _
theorem setmix (q : Operand) : Statement (.setmix q) := rsvOf_commandWord _ _ _
theorem setmode (ch : Slot) (m : Operand) : Statement (.setmode ch m) := rsvOf_commandWord _ _ _
theorem setbyp1 (b : Operand) : Statement (.setbyp1 b) := rsvOf_commandWord _ _ _
theorem setbyp2 (ch : Slot) (b : Operand) : Statement (.setbyp2 ch b) := rsvOf_commandWord _ _ _
theorem getlen1 : Statement .getlen1 := rsvOf_commandWord _ _ _
theorem getlen2 (ch : Slot) : Statement (.getlen2 ch) := rsvOf_commandWord _ _ _
theorem syncph (p : Operand) : Statement (.syncph p) := rsvOf_commandWord _ _ _
theorem getph : Statement .getph := rsvOf_commandWord _ _ _

end Sys2Proof.Laws.ReservedBits
end

