-- ==== Sys2Proof/Laws/Samples.lean ====
section
/-! SUPPORT. One sample of each engine in a well-formed state: that it answers, that it keeps the state
well-formed, and what it is in exact arithmetic. -/

namespace Sys2Proof.Machine

/-! ## Parts of a well-formed state -/

theorem inst_ok {s : State} (h : StateOk s) (c : Slot) : InstOk s.cfg (s.inst c) := by
  cases c; exact h.inst0_ok; exact h.inst1_ok

theorem dly_wf {s : State} (h : StateOk s) (c : Slot) : Memory.wf (s.dly c) = true := by
  cases c; exact h.dly0_wf; exact h.dly1_wf

theorem blk_wf {s : State} (h : StateOk s) (c : Slot) : Memory.wf (s.blk c) = true := by
  cases c; exact h.blk0_wf; exact h.blk1_wf

/-- A row of the mode tables meets rule R8. -/
theorem modeRow_ok {c : Config} (h : ConfigAdmissible c) {m r} (hm : modeRow c m = some r)
    : ModeRowAdmissible c r := by
  cases m <;> simp [modeRow] at hm <;> subst hm
  exact h.mode1_ok; exact h.mode2_ok; exact h.mode3_ok

/-- The delay range of an engine that takes part is a range (rules R8, R34). -/
theorem minds_le {s : State} (h : StateOk s) {c : Slot} (ht : TakesPart s c) : 0 ≤ (s.inst c).minds ∧
    (s.inst c).minds ≤ (s.inst c).maxds := by
  have hm : (s.inst c).mode ≠ .off := by
    have := ht.2; unfold passThrough at this; simp at this; exact this.2
  obtain ⟨r, hr⟩ : ∃ r, modeRow s.cfg (s.inst c).mode = some r := by
    cases e : (s.inst c).mode <;> first | exact absurd e hm | exact ⟨_, rfl⟩
  obtain ⟨e1, e2⟩ := (inst_ok h c).range_eq r hr
  have ra := modeRow_ok h.cfg_ok hr
  have fs : 0 ≤ s.cfg.fsHz := by linarith [h.cfg_ok.fs_gt_5]
  rw [e1, e2]
  exact ⟨rmul_nonneg h.cfg_ok.rounding_ok ra.min_ge fs, rmul_mono_left h.cfg_ok.rounding_ok ra.max_ge fs⟩

/-- The phase increment of a variant-2 engine lies in [0, 1] (rules R28, R29). -/
theorem phinc_ok {s : State} (h : StateOk s) (hv : s.cfg.variant = .v2) (c : Slot) : 0 ≤ (s.inst c).phinc ∧
    (s.inst c).phinc ≤ 1 := by
  have hi := inst_ok h c
  have hr := h.cfg_ok.rounding_ok
  rw [hi.phinc_eq, phaseIncrement]
  have r0 : s.cfg.v2RateMin ≤ (s.inst c).rate := by have := hi.rate_ge; simpa [rateMin, hv] using this
  have r1 : (s.inst c).rate ≤ s.cfg.v2RateMax := by have := hi.rate_le; simpa [rateMax, hv] using this
  have f := h.cfg_ok.fs_gt_5
  have g := h.cfg_ok.fs_gt_rate
  have p := h.cfg_ok.rate_pos
  constructor
  · exact roundReal_nonneg hr (div_nonneg (by linarith) (by linarith))
  · exact roundReal_le_one hr ((div_le_one (by linarith)).2 (by linarith))

/-! ## One sample of PROC1 -/

/-- In a well-formed state a sample of `PROC1` answers, with canonical phases. -/
theorem v1Sample_ends {n : Nat} {s : State} (h : StateOk s) (hv : s.cfg.variant = .v1) (hi : s.inst0.inited = true) :
    ∃ rl rr pl pr, V1Reads n s rl rr pl pr ∧ IsPhase pl ∧ IsPhase pr := by
  have hr := h.cfg_ok.rounding_ok
  have hw := h.inst0_ok.widx_lt hi
  have hcap : 10 ≤ s.inst0.cap.toNat := by have := h.inst0_ok.cap_ge hi; simpa [minLen, hv, v1MinLen] using this
  have hcl := s.inst0.cap.isLt
  have mle := h.cfg_ok.max_delay_le _ hcap (by omega)
  have mge := h.cfg_ok.max_delay_ge _ hcap (by omega)
  have m0 := h.cfg_ok.min_delay_ge
  have hd : ∀ t, 0 ≤ v1Delay s t ∧ v1Delay s t ≤ (s.inst0.cap.toNat : Rat) - 1 := by
    intro t
    exact ⟨le_trans m0 (clampReal_ge mge), le_trans (clampReal_le mge) mle⟩
  have hdd : ∀ t, v1Delay (v1Stored n s) t = v1Delay s t := fun _ => rfl
  have rd : ∀ t, ∃ r, dlReadI .s0 (v1Delay (v1Stored n s) t) (v1Stored n s) = .ok r := by
    intro t
    exact dlReadI_band_ends (s := v1Stored n s) (c := .s0) hr hw (by rw [hdd]; exact (hd t).1)
        (by rw [hdd]; exact (hd t).2)
  have inc0 : 0 ≤ s.inst0.phinc ∧ s.inst0.phinc ≤ 1 := by
    rw [h.inst0_ok.phinc_eq, phaseIncrement]
    have r0 : (1/10 : Rat) ≤ s.inst0.rate := by have := h.inst0_ok.rate_ge; simpa [rateMin, hv, v1RateMin] using this
    have r1 : s.inst0.rate ≤ 5 := by have := h.inst0_ok.rate_le; simpa [rateMax, hv, v1RateMax] using this
    have f := h.cfg_ok.fs_gt_5
    constructor
    · exact roundReal_nonneg hr (div_nonneg (by linarith) (by linarith))
    · exact roundReal_le_one hr ((div_le_one (by linarith)).2 (by linarith))
  obtain ⟨rl, hl⟩ := rd (tri s.cfg s.v1.phL)
  obtain ⟨rr, hrr⟩ := rd (tri s.cfg s.v1.phR)
  obtain ⟨pl, hpl, -⟩ := lfoAdvance_ends hr h.v1_ok.phL_ok inc0.1 inc0.2
  obtain ⟨pr, hpr, -⟩ := lfoAdvance_ends hr h.v1_ok.phR_ok inc0.1 inc0.2
  exact ⟨rl, rr, pl, pr, ⟨hw, hl, hrr, hpl, hpr⟩, lfoAdvance_phase hr h.v1_ok.phL_ok inc0.1 hpl,
      lfoAdvance_phase hr h.v1_ok.phR_ok inc0.1 hpr⟩

/-- A sample of `PROC1` keeps a state well-formed. -/
theorem v1After_ok {n : Nat} {s : State} {rl rr pl pr : Rat} (h : StateOk s)
    (hw : s.inst0.widx.toNat < s.inst0.cap.toNat)
    (hpl : IsPhase pl) (hpr : IsPhase pr) : StateOk (v1After n rl rr pl pr s) where
  cfg_ok := h.cfg_ok
  inst0_ok := { h.inst0_ok with widx_lt := fun _ => nextIndex_lt hw }
  inst1_ok := h.inst1_ok
  v1_ok := { h.v1_ok with phL_ok := hpl, phR_ok := hpr }
  latch_ok := h.latch_ok
  dly0_wf := Memory.writeWord_wf _ _ h.dly0_wf
  dly1_wf := h.dly1_wf
  blk0_wf := Memory.writeWord_wf _ _ h.blk0_wf
  blk1_wf := h.blk1_wf

/-- A sample of `PROC1` in exact arithmetic (rule R157). -/
theorem v1Sample_exact {n : Nat} {s : State} (h : StateOk s) (hx : s.cfg.rounding = .exact) (hv : s.cfg.variant
    = .v1) (hi : s.inst0.inited = true) :
    v1Sample n s = .ok (v1SampleExact n s) := by
  obtain ⟨rl, rr, pl, pr, hr, h1, h2⟩ := v1Sample_ends (n := n) h hv hi
  rw [v1Sample_of_reads hr]
  have hcap : 10 ≤ s.inst0.cap.toNat := by have := h.inst0_ok.cap_ge hi; simpa [minLen, hv, v1MinLen] using this
  have hcl := s.inst0.cap.isLt
  have mge := h.cfg_ok.max_delay_ge _ hcap (by omega)
  have hdel : ∀ p, v1Delay (v1Stored n s) (tri s.cfg p) = limit (s.v1.base + triangleExact p * s.inst0.depth
      * s.cfg.v1ModRange)
      s.cfg.v1MinDelay (v1MaxDelayAt s.cfg s.inst0.cap.toNat) := by
    intro p
    show clampReal (radd s.cfg s.v1.base (rmul s.cfg (rmul s.cfg (tri s.cfg p) s.inst0.depth) s.cfg.v1ModRange))
        s.cfg.v1MinDelay (v1MaxDelayAt s.cfg s.inst0.cap.toNat) = _
    rw [limit_eq mge, radd_exact hx, rmul_exact hx, rmul_exact hx, tri_exact hx]
  have ltap := dlReadI_exact (c := .s0) (s := v1Stored n s) hx hr.widx_lt (v1Delay (v1Stored n s)
      (tri s.cfg s.v1.phL))
  have rtap := dlReadI_exact (c := .s0) (s := v1Stored n s) hx hr.widx_lt (v1Delay (v1Stored n s)
      (tri s.cfg s.v1.phR))
  have lm := dlReadI_mem (s := v1Stored n s) (c := .s0) hx hr.widx_lt hr.left
  have rm := dlReadI_mem (s := v1Stored n s) (c := .s0) hx hr.widx_lt hr.right
  rw [hr.left, hdel] at ltap
  rw [hr.right, hdel] at rtap
  injection ltap with ltap
  injection rtap with rtap
  have pl' := hr.advL
  have pr' := hr.advR
  rw [lfoAdvance_exact hx] at pl' pr'
  injection pl' with pl'
  injection pr' with pr'
  have hwet : wetAverage s.cfg rl rr = truncExact ((rl + rr) / 2) := by
    rw [wetAverage, rdiv_exact hx, radd_exact hx, toInt_eq]
  have hwm := toInt_range (x := (rl + rr)/2) (by linarith [lm.1, rm.1]) (by linarith [lm.2, rm.2])
  rw [toInt_eq] at hwm
  have hxm := sample_toInt_mem (s.blkWord .s0 n)
  have hsum := h.v1_ok.weights_sum
  have hout : mix8 (s.blkWord .s0 n) (truncExact ((rl + rr) / 2)) s.v1.wet256 s.v1.dry256 =
      BitVec.ofInt 16 (((s.blkWord .s0 n).toInt * s.v1.dry256.toNat + truncExact ((rl+rr)/2) * s.v1.wet256.toNat)
          / 256) := by
    unfold mix8 sampleOf asr8 clamp16
    rw [clampInt_of_mem]
    · generalize (s.blkWord .s0 n).toInt = x at *
      generalize truncExact ((rl+rr)/2) = w at *
      generalize s.v1.wet256.toNat = a at *
      generalize s.v1.dry256.toNat = b at *
      have : -32768 * 256 ≤ x * b + w * a := by have : (a : Int) + b = 256 := by omega
                                                nlinarith
      omega
    · generalize (s.blkWord .s0 n).toInt = x at *
      generalize truncExact ((rl+rr)/2) = w at *
      generalize s.v1.wet256.toNat = a at *
      generalize s.v1.dry256.toNat = b at *
      have : x * b + w * a ≤ 32767 * 256 := by have : (a : Int) + b = 256 := by omega
                                               nlinarith
      omega
  unfold v1After
  rw [hwet, hout]
  subst pl' pr' ltap rtap
  rfl

/-! ## One sample of PROC2 -/

/-- In a well-formed state a sample of `PROC2` answers where its line is long enough or arithmetic is exact,
with a canonical local phase. -/
theorem v2Sample_ends {c : Slot} {n : Nat} {s : State} {lp : Rat} (h : StateOk s) (hv : s.cfg.variant = .v2)
    (ht : TakesPart s c)
    (hl : LineLongEnough (s.inst c) ∨ s.cfg.rounding = .exact) (hp : IsPhase lp) :
    ∃ pe r lp', V2Reads c n s lp pe r lp' ∧ IsPhase lp' := by
  have hr := h.cfg_ok.rounding_ok
  have hw := (inst_ok h c).widx_lt ht.1
  obtain ⟨m0, m1⟩ := minds_le h ht
  obtain ⟨i0, i1⟩ := phinc_ok h hv c
  obtain ⟨pe, hpe, -⟩ := effectivePhase_ends hr (s.inst c).isRight hp
  obtain ⟨lp', hlp, -⟩ := lfoAdvance_ends hr hp i0 i1
  have hst : ((v2Stored c n s).inst c).widx = (s.inst c).widx ∧ ((v2Stored c n s).inst c).cap = (s.inst c).cap ∧
      (v2Stored c n s).cfg = s.cfg := by
    simp [v2Stored]
  have rd : ∃ r, dlReadI c (v2Delay s.cfg (s.inst c) (lfoVal2 s.cfg (s.inst c).mode pe)) (v2Stored c n s)
      = .ok r := by
    rcases hl with hl | hx
    · refine dlReadI_band_ends (by rw [hst.2.2]; exact hr) (by rw [hst.1, hst.2.1]; exact hw) ?_ ?_
      · exact le_trans m0 (clampReal_ge m1)
      · rw [hst.2.1]; exact le_trans (clampReal_le m1) hl
    · exact dlReadI_exact_ends _ (by rw [hst.2.2]; exact hx) (by rw [hst.1, hst.2.1]; exact hw)
  obtain ⟨r, hrd⟩ := rd
  exact ⟨pe, r, lp', ⟨hw, hpe, hrd, hlp⟩, lfoAdvance_phase hr hp i0 hlp⟩

/-- A sample of `PROC2` keeps a state well-formed. -/
theorem v2After_ok {c : Slot} {n : Nat} {s : State} {r : Rat} (h : StateOk s) (hw : (s.inst c).widx.toNat <
    (s.inst c).cap.toNat) : StateOk (v2After c n r s) := by
  cases c
  · exact ⟨h.cfg_ok, { h.inst0_ok with widx_lt := fun _ => nextIndex_lt hw }, h.inst1_ok, h.v1_ok, h.latch_ok,
      Memory.writeWord_wf _ _ h.dly0_wf, h.dly1_wf, Memory.writeWord_wf _ _ h.blk0_wf, h.blk1_wf⟩
  · exact ⟨h.cfg_ok, h.inst0_ok, { h.inst1_ok with widx_lt := fun _ => nextIndex_lt hw }, h.v1_ok, h.latch_ok,
      h.dly0_wf, Memory.writeWord_wf _ _ h.dly1_wf, h.blk0_wf, Memory.writeWord_wf _ _ h.blk1_wf⟩

/-- A sample of `PROC2` in exact arithmetic (rule R180). -/
theorem v2Sample_exact {c : Slot} {n : Nat} {s : State} {lp : Rat} (h : StateOk s) (hv : s.cfg.variant = .v2)
    (ht : TakesPart s c)
    (hx : s.cfg.rounding = .exact) (hp : IsPhase lp) : v2Sample c n (s, lp) = .ok (v2SampleExact c n (s, lp)) := by
  obtain ⟨pe, r, lp', hr, h1⟩ := v2Sample_ends (n := n) h hv ht (.inr hx) hp
  rw [v2Sample_of_reads hr]
  obtain ⟨m0, m1⟩ := minds_le h ht
  have hpe := hr.phase
  rw [effectivePhase_exact hx (s.inst c).isRight lp] at hpe
  injection hpe with hpe
  have hlp := hr.advance
  rw [lfoAdvance_exact hx] at hlp
  injection hlp with hlp
  have hst : ((v2Stored c n s).inst c).widx = (s.inst c).widx ∧ ((v2Stored c n s).inst c).cap = (s.inst c).cap ∧
      (v2Stored c n s).cfg = s.cfg ∧ (v2Stored c n s).dly c = Memory.writeWord (s.dly c) (s.inst c).widx.toNat
          (sampleExact (v2Pre c n s)) := by
    simp [v2Stored, sampleOf_toInt]
  have tap := dlReadI_exact (c := c) (s := v2Stored c n s) (by rw [hst.2.2.1]; exact hx) (hst.1 ▸ hst.2.1 ▸ hr.widx_lt)
    (v2Delay s.cfg (s.inst c) (lfoVal2 s.cfg (s.inst c).mode pe))
  rw [hr.read, hst.1, hst.2.1, hst.2.2.2] at tap
  injection tap with tap
  have hdel : ∀ v, v2Delay s.cfg (s.inst c) v = limit ((s.inst c).minds + v * (s.inst c).depth *
      ((s.inst c).maxds - (s.inst c).minds) + (if (s.inst c).isRight then s.cfg.v2RightOffset else 0))
          (s.inst c).minds (s.inst c).maxds := by
    intro v
    simp only [v2Delay, radd_exact hx, rmul_exact hx, rsub_exact hx, limit_eq m1]
  have hone : ∀ y a x, onepole s.cfg y a x = y + a * (x - y) := by
    intro y a x; rw [onepole, radd_exact hx, rmul_exact hx, rsub_exact hx]
  rw [hdel, lfoVal2_exact hx, v2Pre, hone, ← hpe] at tap
  unfold v2After
  rw [sampleOf_toInt, sampleOf_toInt, v2Pre, hone, hone, softclip_exact hx h.cfg_ok.sat_t_pos, ← hlp, tap]
  rfl

/-! ## The zero fill and the response -/

theorem silence_inst (c d : Slot) (b) (s : State) : (substituteSilence c b s).inst d = s.inst d := by
  cases b <;> simp [substituteSilence]
theorem silence_cfg (c : Slot) (b) (s : State) : (substituteSilence c b s).cfg = s.cfg := by
  cases b <;> simp [substituteSilence]
theorem silence_dly (c d : Slot) (b) (s : State) : (substituteSilence c b s).dly d = s.dly d := by
  cases b <;> simp [substituteSilence]
theorem silence_latch (c : Slot) (b) (s : State) : (substituteSilence c b s).latch = s.latch := by
  cases b <;> simp [substituteSilence]

/-- The block after the zero fill of a missing input (rules R156, R179). -/
theorem silence_read (c : Slot) (inV : Bool) (s : State) {n : Nat} (hn : n < s.cfg.blockN) :
    Memory.readWord ((substituteSilence c inV s).blk c) n = if inV then Memory.readWord (s.blk c) n else 0 := by
  cases inV
  · simp [substituteSilence, Memory.readWord_zeroWords, hn]
  · rfl

theorem silence_ok {s : State} (c : Slot) (inV : Bool) (h : StateOk s) : StateOk (substituteSilence c inV s) := by
  unfold substituteSilence; split
  · exact h
  · cases c
    · exact { h with blk0_wf := Memory.zeroWords_wf _ h.blk0_wf }
    · exact { h with blk1_wf := Memory.zeroWords_wf _ h.blk1_wf }

theorem setResp_ok {s : State} (w) (h : StateOk s) : StateOk (s.setResp w) := { h with }

theorem setLatch_ok {s : State} {l} (h : StateOk s) (hl : LatchOk l) : StateOk (s.setLatch l) :=
    { h with latch_ok := hl }

/-! ## The loop -/

theorem forSamples_succ {σ} (f : Nat → σ → Except Fault σ) (k x) : forSamples f (k+1) x = match forSamples f k x with
    | .ok y => f k y
    | .error e => .error e := rfl

/-- A fold over one more index. -/
theorem foldl_range_succ {α} (f : α → Nat → α) (n : Nat) (x : α) : (List.range (n+1)).foldl f x = f
    ((List.range n).foldl f x) n := by
  rw [List.range_succ, List.foldl_append]; rfl

end Sys2Proof.Machine
end

