-- ==== Sys2Proof/Tests/Slice0.lean ====
section
/-! SUPPORT. Tests. Every expected value is taken from `spec/95_test_vectors.md` (the section or program
is named beside it) or from the rule named beside it; none from the model. -/

namespace Sys2Proof.Tests

open Sys2Proof Sys2Proof.Machine

/-! ## Configurations and small states -/

/-- Test configuration T1. -/
def t1 : Config :=
  { Config.reference with
    variant := .v1, fsHz := 100, blockN := 4, v1BaseDelay := 3, v1ModRange := 2, v1MinDelay := 1
    v1MaxDelay := .capMinus 2, beat := .const 0 }

/-- Test configuration T2a. -/
def t2a : Config :=
  { Config.reference with
    variant := .v2, fsHz := 1000, blockN := 4, v2RateMin := 1 / 10, v2RateMax := 250
    mode1 := { rate := 125, minS := 8 / 1000, maxS := 24 / 1000, depth := 1 }
    mode2 := { rate := 50, minS := 10 / 1000, maxS := 28 / 1000, depth := 1 }
    mode3 := { rate := 100, minS := 8 / 1000, maxS := 28 / 1000, depth := 3 / 4 }
    aPre := 1, aPost := 1, beat := .const 0 }

/-- A space that holds the given words from word 0 on. -/
def memoryOf (words : List Int) : Memory :=
  (words.zipIdx).foldl (fun m x => Memory.writeWord m x.2 (BitVec.ofInt 16 x.1)) []

/-- The first words of a space. -/
def wordsOf (m : Memory) (n : Nat) : List Int := (List.range n).map fun i => (Memory.readWord m i).toInt

/-- A T1 device after reset and `INIT1 len=16`, with the given block. -/
def v1State (block : List Int) : State :=
  let s := State.resetWith t1 [] [] (memoryOf block) []
  { s with inst0 := { s.inst0 with inited := true, cap := 16 } }

/-- The registers of a T2a engine after `INIT2 len=64` and `SETMODE 1`. -/
def v2Inst (right : Bool) : Inst :=
  { Inst.reset t2a with
    inited := true, cap := 64, isRight := right, mode := .modeA, rate := 125, phinc := 1 / 8, depth := 1
    minds := 8, maxds := 24 }

/-- A T2a device with both engines initialised in mode 1. -/
def v2State (block : List Int) : State :=
  { State.resetWith t2a [] [] (memoryOf block) (memoryOf block) with inst0 := v2Inst false, inst1 := v2Inst true }

/-- The next state passes `p`. -/
def nextIs (o : Host.Outcome State Fault Refusal) (p : State → Bool) : Bool :=
  match o with
  | .next t => p t
  | .fault _ => false
  | .refused _ => false

/-- The latch as section 3.7 writes it. -/
def latchOf (phase : Rat) (valid : Bool) (start endPh : Rat) (ready : Bool) (count : BitVec 2) : Latch :=
  { phase, valid, start, endPh, ready, count }

/-! ## Well-formedness -/

/-- A command of variant 2 is ill-formed on variant 1 (rule R94). -/
theorem test_wellFormed_setmode_v1 : (Instr.setmode .s0 1).wellFormed .v1 = false := by decide
/-- `SETMIX` is ill-formed on variant 2 (rule R94). -/
theorem test_wellFormed_setmix_v2 : (Instr.setmix 0).wellFormed .v2 = false := by decide
/-- An ill-formed command is answered ILLEGAL and changes nothing else. -/
theorem test_wellFormed_exec :
    nextIs (exec (.setmix 0) (v2State [])) (fun t => t == { v2State [] with resp := some illegalWord }) = true := by
  decide +kernel

/-! ## Words written out from the spec's encodings (section 3.1) -/

theorem test_decode_init1 : decode .v1 0x1000000003000010#64 = .ok (.init1 16 true true) := by decide
theorem test_decode_init2 : decode .v2 0x1800000005000040#64 = .ok (.init2 .s1 64 true true) := by decide
theorem test_decode_proc1 : decode .v1 0x2000000000000001#64 = .ok (.proc1 true) := by decide
theorem test_decode_proc2 : decode .v2 0x2800000000000001#64 = .ok (.proc2 .s1 true) := by decide
theorem test_decode_setrate1 : decode .v1 0x30000000FFFFFFFF#64 = .ok (.setrate1 0xFFFFFFFF) := by decide
theorem test_decode_setrate2 : decode .v2 0x38000000007D0000#64 = .ok (.setrate2 .s1 0x007D0000) := by decide
theorem test_decode_setdepth1 : decode .v1 0x40000000FFFFC000#64 = .ok (.setdepth1 0xFFFFC000) := by decide
theorem test_decode_setdepth2 : decode .v2 0x4000000000010000#64 = .ok (.setdepth2 .s0 0x00010000) := by decide
theorem test_decode_setmix : decode .v1 0x5000000000004CCD#64 = .ok (.setmix 0x00004CCD) := by decide
theorem test_decode_setmode : decode .v2 0x68000000FFFFFFFF#64 = .ok (.setmode .s1 0xFFFFFFFF) := by decide
theorem test_decode_setbyp1 : decode .v1 0x7000000080000000#64 = .ok (.setbyp1 0x80000000) := by decide
theorem test_decode_setbyp2 : decode .v2 0x7800000000000001#64 = .ok (.setbyp2 .s1 1) := by decide
theorem test_decode_getlen1 : decode .v1 0x8000000000000000#64 = .ok .getlen1 := by decide
theorem test_decode_getlen2 : decode .v2 0x8800000000000000#64 = .ok (.getlen2 .s1) := by decide
theorem test_decode_syncph : decode .v2 0x9000000040000000#64 = .ok (.syncph 0x40000000) := by decide
theorem test_decode_getph : decode .v2 0xA000000000000000#64 = .ok .getph := by decide

/-- The encoder writes the same words (section 3.1). -/
theorem test_encode :
    encode (.init1 16 true true) = 0x1000000003000010#64 ∧
    encode (.init2 .s1 31 true true) = 0x180000000500001F#64 ∧
    encode (.proc2 .s1 false) = 0x2800000000000000#64 ∧
    encode (.setrate2 .s1 0x007D0000) = 0x38000000007D0000#64 ∧
    encode (.getlen2 .s1) = 0x8800000000000000#64 := by decide

/-- Reserved operation codes. -/
theorem test_illegal_opcode :
    decode .v1 0x0000000000000000#64 = .error .reservedOpcode ∧
    decode .v2 0xB000000000000000#64 = .error .reservedOpcode ∧
    decode .v1 0xF000000000000000#64 = .error .reservedOpcode := by decide
/-- Reserved bits 32 and 58. -/
theorem test_illegal_reserved :
    decode .v1 0x3000000100008000#64 = .error .reservedBits ∧
    decode .v2 0x3C00000000008000#64 = .error .reservedBits := by decide
/-- `CH = 1` where it must be 0. -/
theorem test_illegal_channel :
    decode .v1 0x5800000000008000#64 = .error .wrongChannel ∧
    decode .v1 0x2800000000000001#64 = .error .wrongChannel ∧
    decode .v2 0x9800000000000000#64 = .error .wrongChannel ∧
    decode .v2 0xA800000000000000#64 = .error .wrongChannel := by decide
/-- Commands of the other variant. -/
theorem test_illegal_variant :
    decode .v2 0x5000000000008000#64 = .error .otherVariant ∧
    decode .v1 0x6000000000000001#64 = .error .otherVariant ∧
    decode .v1 0xA000000000000000#64 = .error .otherVariant := by decide
/-- Operand bits that must be zero. -/
theorem test_illegal_operand :
    decode .v1 0x1000000007000010#64 = .error .operandBits ∧
    decode .v1 0x1000000005000040#64 = .error .operandBits ∧
    decode .v2 0x1000000003000040#64 = .error .operandBits ∧
    decode .v2 0x100000000D000040#64 = .error .operandBits ∧
    decode .v1 0x2000000000000002#64 = .error .operandBits ∧
    decode .v1 0x8000000000000001#64 = .error .operandBits ∧
    decode .v2 0xA000000000000001#64 = .error .operandBits := by decide

/-- The word interface of the opcode table: a word of each variant, and an illegal one. -/
theorem test_decodeTableWord :
    decodeTableWord 64 0x5000000000008000 = some (.setmix 0x8000) ∧
    decodeTableWord 64 0x6800000000000003 = some (.setmode .s1 3) ∧
    decodeTableWord 64 0xB000000000000000 = none := by decide +kernel

/-- A presented table word runs as the next step (rule R80). -/
theorem test_withFetchWord :
    nextIs (step (State.reset.withFetchWord 64 0x5000000000010000)) (fun t => t.v1.wet256 == 256 && t.input == []) =
      true := by decide +kernel

/-! ## INIT (sections 3.5 and 3.6) -/

theorem test_init1_minimum :
    nextIs (exec (.init1 10 true true) (State.resetWith t1 [(0, 7)] [(5, 9)] [] [])) (fun t =>
      t.inst0.inited && t.inst0.cap == 10 && t.v1.base == 3 && t.v1.phR == 1 / 4 && t.dly0 == [] && t.dly1 == [] &&
      t.inst0.rate == 1 / 2 && t.resp == some 0x0000000100000000) = true := by decide +kernel
theorem test_init1_short :
    nextIs (exec (.init1 9 true true) (v1State [])) (fun t =>
      t == { v1State [] with resp := some 0x4000000000000000 }) = true := by decide +kernel
theorem test_init2_minimum :
    nextIs (exec (.init2 .s1 32 true true) (State.resetWith t2a [(0, 7)] [(0, 7), (64, 8)] [] [])) (fun t =>
      t.inst1.inited && t.inst1.cap == 32 && t.inst1.isRight && t.inst1.mode == .off && !t.inst0.inited &&
      t.dly0 == [(0, 7)] && t.dly1 == [(64, 8)] && t.latch == Latch.reset) = true := by decide +kernel
theorem test_init2_short :
    nextIs (exec (.init2 .s1 31 true true) (v2State [])) (fun t =>
      t == { v2State [] with resp := some 0x4000000000000000 }) = true := by decide +kernel

/-! ## PROC -/

/-- Program P6, command 2. -/
theorem test_proc1_block :
    nextIs (exec (.proc1 true) (v1State [256, 0, 0, 0])) (fun t =>
      wordsOf t.blk0 4 == [128, 61, 5, 56] && wordsOf t.dly0 16 == 256 :: List.replicate 15 0 &&
      t.inst0.widx == 4 && t.v1.phL == 1 / 50 && t.v1.phR == 27 / 100) = true := by decide +kernel
/-- Section 3.8: `PROC` on an uninitialised instance zero-fills nothing. -/
theorem test_proc1_uninitialised :
    nextIs (exec (.proc1 false) (State.resetWith t1 [] [] (memoryOf [5]) [])) (fun t =>
      t == { State.resetWith t1 [] [] (memoryOf [5]) [] with resp := some 0x8000000000000000 }) = true := by decide +kernel
/-- Program P3, tick 2, left channel, and the first row of section 3.7. -/
theorem test_proc2_left :
    let s := v2State [9000, 10000, 11000, 12000]
    nextIs (exec (.proc2 .s0 true)
        { s with
          inst0 := { s.inst0 with widx := 8, preY := 8000 }
          dly0 := memoryOf [1000, 2000, 3000, 4000, 5000, 6000, 7000, 8000] }) (fun t =>
      wordsOf t.blk0 4 == [1000, 0, 0, 0] && t.inst0.widx == 12 && t.inst0.preY == 12000 &&
      t.latch == latchOf 0 true 0 (1 / 2) true 1) = true := by decide +kernel
/-- Program P5, step 6: pass-through leaves everything (`BYPASS_TOUCHES_LATCH` is false). -/
theorem test_proc2_bypass :
    let s := { v2State [5, 6, 7, 8] with inst0 := { v2Inst false with bypass := true } }
    nextIs (exec (.proc2 .s0 true) s) (fun t => t == { s with resp := some 0x0000000100000000 }) = true := by
  decide +kernel

/-- Program P5 under T2d, steps 6 and 7's partner: a bypassed primary opens the tick, and one that finds it open
with `READY = 0` closes it with no commit. -/
theorem test_proc2_bypass_latch :
    let s := { v2State [5, 6, 7, 8] with
      inst0 := { v2Inst false with bypass := true }, cfg := { t2a with bypassTouchesLatch := true } }
    nextIs (exec (.proc2 .s0 true) s) (fun t => t.latch == latchOf 0 true 0 0 false 1 && t.blk0 == s.blk0) = true ∧
    nextIs (exec (.proc2 .s0 true) { s with latch := latchOf 0 true 0 (1 / 2) false 1 })
      (fun t => t.latch == latchOf 0 false 0 (1 / 2) false 0) = true := by
  constructor <;> decide +kernel

/-! ## Conversions (section 3.4) -/

theorem test_toInt :
    [29 / 10, -29 / 10, -1 / 2, 1001 / 2, 1001 / 16, 0, 2001 / 2, -2001 / 2].map toInt =
      [2, -2, 0, 500, 62, 0, 1000, -1000] := by decide +kernel
theorem test_clamp16 :
    [32767, 32768, 40000, -32768, -32769, 0].map clamp16 = [32767, 32767, 32767, -32768, -32768, 0] := by decide
theorem test_roundHalfAway :
    [1 / 2, 3 / 2, 511 / 2, 768 / 10, -1 / 2, 65407 / 256].map roundHalfAway = [1, 2, 256, 77, -1, 255] := by
  decide +kernel
theorem test_asr8 : [-1, -256, -257, 255, 256].map asr8 = [-1, -1, -2, 0, 1] := by decide

/-! ## Setters (sections 3.4 to 3.6) -/

theorem test_setrate1_top :
    nextIs (exec (.setrate1 0x00640000) (v1State [])) (fun t => t.inst0.rate == 5 && t.inst0.phinc == 1 / 20) =
      true := by decide +kernel
theorem test_setrate1_bottom :
    nextIs (exec (.setrate1 0x00001999) (v1State [])) (fun t => t.inst0.rate == 1 / 10 && t.inst0.phinc == 1 / 1000) =
      true := by decide +kernel
theorem test_setrate2_top :
    nextIs (exec (.setrate2 .s1 0x012C0000) (v2State [])) (fun t =>
      t.inst1.rate == 250 && t.inst1.phinc == 1 / 4 && t.inst0 == v2Inst false) = true := by decide +kernel
theorem test_setdepth1_negative :
    nextIs (exec (.setdepth1 0xFFFFC000) (v1State [])) (fun t => t.inst0.depth == 0) = true := by decide +kernel
theorem test_setdepth2_large :
    nextIs (exec (.setdepth2 .s0 0x00018000) (v2State [])) (fun t => t.inst0.depth == 1) = true := by decide +kernel
theorem test_setmix_rounds :
    nextIs (exec (.setmix 0x00000080) (v1State [])) (fun t => t.v1.mix == 1 / 512 && t.v1.wet256 == 1 && t.v1.dry256 == 255) =
      true := by decide +kernel
theorem test_setmix_half_up :
    nextIs (exec (.setmix 0x0000FF80) (v1State [])) (fun t => t.v1.wet256 == 256 && t.v1.dry256 == 0) = true := by
  decide +kernel
theorem test_setmode_clamps :
    nextIs (exec (.setmode .s0 7) (v2State [])) (fun t =>
      t.inst0.mode == .combined && t.inst0.rate == 100 && t.inst0.phinc == 1 / 10 && t.inst0.depth == 3 / 4 &&
      t.inst0.minds == 8 && t.inst0.maxds == 28) = true := by decide +kernel
theorem test_setmode_off_keeps :
    nextIs (exec (.setmode .s0 0xFFFFFFFF) (v2State [])) (fun t => t.inst0 == { v2Inst false with mode := .off }) =
      true := by decide +kernel
theorem test_setbyp1_nonzero :
    nextIs (exec (.setbyp1 0x80000000) (v1State [])) (fun t => t.inst0.bypass) = true := by decide +kernel
theorem test_setbyp2_zero :
    nextIs (exec (.setbyp2 .s1 0) { v2State [] with inst1 := { v2Inst true with bypass := true } })
      (fun t => !t.inst1.bypass) = true := by decide +kernel

/-! ## Queries and the latch commands -/

theorem test_getlen1 :
    nextIs (exec .getlen1 (v1State [])) (fun t => t == { v1State [] with resp := some 0x0000000100000010 }) = true := by
  decide +kernel
theorem test_getlen2 :
    nextIs (exec (.getlen2 .s1) (v2State [])) (fun t => t == { v2State [] with resp := some 0x0000000100000040 }) = true := by
  decide +kernel
theorem test_syncph :
    nextIs (exec (.syncph 0x40000000) (v2State [])) (fun t => t.latch == latchOf (1 / 4) false 0 0 false 0) =
      true := by decide +kernel
/-- Section 3.7, step 7: truncation to 32 fractional bits. -/
theorem test_getph :
    nextIs (exec .getph { v2State [] with latch := latchOf (9 / 20) false (1 / 4) (9 / 20) false 0 })
      (fun t => t.resp == some 0x0000000173333333) = true := by decide +kernel

end Sys2Proof.Tests
end

