-- ==== Sys2Proof/Tests/Witnesses.lean ====
section
/-! SUPPORT. For every statement of `Sys2Proof/Certificates/Slice0/Obligations.lean` that has hypotheses, a
theorem that shows a concrete state and operands meeting all of them together; where a statement has
clauses over a range, one for each clause at a boundary of its range. -/

namespace Sys2Proof.Tests

open Sys2Proof Sys2Proof.Machine

/-! ## Admissible configurations and well-formed states -/

theorem t1_admissible : ConfigAdmissible t1 := by
  constructor
  case max_delay_ge =>
    intro cap h _
    have h' : (10 : Rat) ≤ cap := by exact_mod_cast h
    show (1 : Rat) ≤ (cap : Rat) - 2
    linarith
  case max_delay_le =>
    intro cap _ _
    show (cap : Rat) - 2 ≤ (cap : Rat) - 1
    linarith
  case rounding_ok => exact roundingAdmissible_of_exact rfl
  case mode1_ok => constructor <;> norm_num [t1, Config.reference]
  case mode2_ok => constructor <;> norm_num [t1, Config.reference]
  case mode3_ok => constructor <;> norm_num [t1, Config.reference]
  all_goals norm_num [t1, Config.reference]

theorem t2a_admissible : ConfigAdmissible t2a := by
  constructor
  case max_delay_ge =>
    intro cap h _
    have h' : (10 : Rat) ≤ cap := by exact_mod_cast h
    show (1 : Rat) ≤ (cap : Rat) - 2
    linarith
  case max_delay_le =>
    intro cap _ _
    show (cap : Rat) - 2 ≤ (cap : Rat) - 1
    linarith
  case rounding_ok => exact roundingAdmissible_of_exact rfl
  case mode1_ok => constructor <;> norm_num [t2a, Config.reference]
  case mode2_ok => constructor <;> norm_num [t2a, Config.reference]
  case mode3_ok => constructor <;> norm_num [t2a, Config.reference]
  all_goals norm_num [t2a, Config.reference]

/-- The reference configuration of rule R8, `BEAT` left free, is admissible. -/
theorem reference_admissible : ConfigAdmissible Config.reference := by
  constructor
  case max_delay_ge =>
    intro cap h _
    have h' : (10 : Rat) ≤ cap := by exact_mod_cast h
    show (1 : Rat) ≤ (cap : Rat) - 2
    linarith
  case max_delay_le =>
    intro cap _ _
    show (cap : Rat) - 2 ≤ (cap : Rat) - 1
    linarith
  case rounding_ok => exact roundingAdmissible_of_exact rfl
  case mode1_ok => constructor <;> norm_num [Config.reference]
  case mode2_ok => constructor <;> norm_num [Config.reference]
  case mode3_ok => constructor <;> norm_num [Config.reference]
  all_goals norm_num [Config.reference]

theorem v1Regs_ok {c : Config} (h : c.rounding = .exact) : V1Ok c (V1Regs.reset c) where
  mix_ge := by norm_num [V1Regs.reset]
  mix_le := by norm_num [V1Regs.reset]
  weights_sum := rfl
  wet_eq := by
    show (128 : Int) = wetWeight c (1 / 2)
    rw [wetWeight, roundHalfAway, rmul_exact h, if_pos (by norm_num), rat_floor_eq]
    norm_num [clampInt]
  base_eq := rfl
  phL_ok := by norm_num [V1Regs.reset, IsPhase]
  phR_ok := by norm_num [V1Regs.reset, IsPhase]

theorem latchReset_ok : LatchOk Latch.reset where
  phase_ok := by norm_num [Latch.reset, IsPhase]
  start_ok := by norm_num [Latch.reset, IsPhase]
  end_ok := by norm_num [Latch.reset, IsPhase]
  count_le := by decide
  idle _ := ⟨rfl, rfl⟩

theorem inst_reset_ok {c : Config} (h1 : rateMin c ≤ 1 / 2) (h2 : 1 / 2 ≤ rateMax c) : InstOk c (Inst.reset c) where
  widx_lt h := by cases h
  cap_ge h := by cases h
  phinc_eq := rfl
  rate_ge := h1
  rate_le := h2
  depth_ge := by norm_num [Inst.reset]
  depth_le := by norm_num [Inst.reset]
  range_eq r h := by cases h

theorem v1_inst_ok : InstOk t1 (v1State []).inst0 where
  widx_lt _ := by decide
  cap_ge _ := by decide
  phinc_eq := rfl
  rate_ge := by norm_num [rateMin, t1, v1RateMin, v1State, State.resetWith, Inst.reset]
  rate_le := by norm_num [rateMax, t1, v1RateMax, v1State, State.resetWith, Inst.reset]
  depth_ge := by norm_num [v1State, State.resetWith, Inst.reset]
  depth_le := by norm_num [v1State, State.resetWith, Inst.reset]
  range_eq r h := by cases h

theorem v2_inst_ok (right : Bool) : InstOk t2a (v2Inst right) where
  widx_lt _ := by cases right <;> decide
  cap_ge _ := by cases right <;> decide
  phinc_eq := by
    show (1 / 8 : Rat) = rdiv t2a 125 1000
    rw [rdiv_exact rfl]
    norm_num
  rate_ge := by norm_num [rateMin, t2a, v2Inst]
  rate_le := by norm_num [rateMax, t2a, v2Inst]
  depth_ge := by norm_num [v2Inst]
  depth_le := by norm_num [v2Inst]
  range_eq r h := by
    have hr : r = t2a.mode1 := by cases h; rfl
    subst hr
    constructor
    · show (8 : Rat) = rmul t2a (8 / 1000) 1000
      rw [rmul_exact rfl]
      norm_num
    · show (24 : Rat) = rmul t2a (24 / 1000) 1000
      rw [rmul_exact rfl]
      norm_num

theorem t1_reset_ok : InstOk t1 (Inst.reset t1) :=
  inst_reset_ok (by norm_num [rateMin, t1, v1RateMin]) (by norm_num [rateMax, t1, v1RateMax])

/-- The variant-1 test state is well-formed, with any block in canonical form. -/
theorem v1State_ok (block : List Int) (h : Memory.wf (memoryOf block) = true) : StateOk (v1State block) :=
  ⟨t1_admissible, v1_inst_ok, t1_reset_ok, v1Regs_ok rfl, latchReset_ok, Memory.wf_nil, Memory.wf_nil, h, Memory.wf_nil⟩

/-- The variant-2 test state is well-formed, with any block in canonical form. -/
theorem v2State_ok (block : List Int) (h : Memory.wf (memoryOf block) = true) : StateOk (v2State block) :=
  ⟨t2a_admissible, v2_inst_ok false, v2_inst_ok true, v1Regs_ok rfl, latchReset_ok, Memory.wf_nil, Memory.wf_nil, h, h⟩

/-- A block with values at both ends of the sample range. -/
def block : List Int := [256, -32768, 32767, 1]

theorem block_wf : Memory.wf (memoryOf block) = true := by decide +kernel

/-- The variant-1 state of the witnesses: initialised, not bypassed. -/
def s1 : State := v1State block

/-- The variant-2 state of the witnesses: both engines take part, slot 0 is the primary. -/
def s2 : State := v2State block

theorem s1_ok : StateOk s1 := v1State_ok block block_wf
theorem s2_ok : StateOk s2 := v2State_ok block block_wf

/-- `s1` with depth 0: the taps stay at the base delay 3, inside the band [1, 14]. -/
def s1Still : State := { s1 with inst0 := { s1.inst0 with depth := 0 } }

theorem s1Still_ok : StateOk s1Still :=
  { s1_ok with inst0_ok := { s1_ok.inst0_ok with depth_ge := le_refl _, depth_le := by norm_num [s1Still] } }

/-- `s1` bypassed. -/
def s1Bypass : State := { s1 with inst0 := { s1.inst0 with bypass := true } }

/-- A state in which moves of the host wait. -/
def withInput (s : State) (moves : List HostMove) : State := { s with input := moves }

theorem s2_paired : Paired s2 .s0 .s1 := ⟨by decide, ⟨rfl, rfl⟩, ⟨rfl, rfl⟩, rfl, rfl, rfl⟩

/-- An answered command, from `nextIs`. -/
theorem exists_next {o : Host.Outcome State Fault Refusal} (h : nextIs o (fun _ => true) = true) : ∃ t, o = .next t := by
  cases o with
  | next t => exact ⟨t, rfl⟩
  | fault f => cases h
  | refused r => cases h

/-! ## Encoding -/

theorem witness_DecodeOfEncode :
    (Instr.init1 0xFFFFFF true true).wellFormed .v1 = true ∧
    (Instr.init2 .s1 0xFFFFFF true true).wellFormed .v2 = true := by decide
theorem witness_EncodeOfDecode : decode .v2 0x1800000005FFFFFF#64 = .ok (.init2 .s1 0xFFFFFF true true) := by decide
theorem witness_AtMostOneRowMatches :
    ∃ r ∈ rows, r.variant = .v1 ∧ 0x5000000000008000#64 &&& r.mask = r.pattern :=
  ⟨_, List.mem_of_getElem? (i := 8) rfl, rfl, by decide⟩

/-! ## One step -/

theorem witness_IdleAfterReset : s2.input = [] := rfl
theorem witness_StepRunsDecodedCommand :
    (withInput s1 [.command 0x5000000000010000#64]).input = .command 0x5000000000010000#64 :: [] ∧
    decode (withInput s1 []).cfg.variant 0x5000000000010000#64 = .ok (.setmix 0x00010000) := by
  constructor
  · rfl
  · decide
theorem witness_IllegalWordChangesNothing :
    (withInput s1 [.command 0xB000000000000000#64]).input = .command 0xB000000000000000#64 :: [] ∧
    ∀ i, decode (withInput s1 []).cfg.variant 0xB000000000000000#64 ≠ .ok i := by
  refine ⟨rfl, fun i h => ?_⟩
  have : decode (withInput s1 []).cfg.variant 0xB000000000000000#64 = .error .reservedOpcode := by decide
  rw [this] at h
  cases h
theorem witness_OtherVariantsCommandIsIllegal :
    Instr.getph.wellFormed s1.cfg.variant = false ∧ (Instr.setmix 0).wellFormed s2.cfg.variant = false := by decide
theorem witness_HostPlacesOneSample :
    Memory.wf (s1.blk .s0) = true ∧ 3 < s1.cfg.blockN ∧
    Memory.wf (s2.blk .s1) = true ∧ 3 < s2.cfg.blockN ∧ s2.cfg.variant = .v2 ∧
    (withInput s1 [.putSample .s0 3 (-1)]).input = .putSample .s0 3 (-1) :: [] ∧
    (withInput s2 [.putSample .s1 3 (-1)]).input = .putSample .s1 3 (-1) :: [] :=
  ⟨block_wf, by decide, block_wf, by decide, rfl, rfl, rfl⟩
theorem witness_StepKeepsConfiguration :
    ∃ t, step (withInput s2 [.command 0x2000000000000001#64]) = .next t := exists_next (by decide +kernel)
theorem witness_EveryCommandReturnsAResponse : ∃ t, exec (.proc1 true) s1 = .next t := exists_next (by decide +kernel)
theorem witness_FailedCommandWritesNothing :
    ∃ t w, exec (.init1 9 true true) s1 = .next t ∧ t.resp = some w ∧ w.extractLsb' 62 2 ≠ 0 :=
  ⟨_, _, rfl, rfl, by decide⟩
theorem witness_OnlyInitAndProcAccessMemory :
    accessesMemory (.setmix 0) = false ∧ ∃ t, exec (.setmix 0) s1 = .next t := ⟨rfl, _, rfl⟩

/-! ## Variant 1 -/

theorem witness_Init1Succeeds : s1.cfg.variant = .v1 ∧ 10 ≤ (10#24).toNat := by decide
theorem witness_InitFails :
    s1.cfg.variant = .v1 ∧ (9#24).toNat < 10 ∧ s2.cfg.variant = .v2 ∧ (31#24).toNat < 32 := by decide
theorem witness_ProcUninitialised :
    (State.resetWith t1 [] [] [] []).cfg.variant = .v1 ∧ (State.resetWith t1 [] [] [] []).inst0.inited = false ∧
    (State.resetWith t2a [] [] [] []).cfg.variant = .v2 ∧
    ((State.resetWith t2a [] [] [] []).inst .s1).inited = false := ⟨rfl, rfl, rfl, rfl⟩
theorem witness_Proc1Bypassed :
    s1Bypass.cfg.variant = .v1 ∧ s1Bypass.inst0.inited = true ∧ s1Bypass.inst0.bypass = true := ⟨rfl, rfl, rfl⟩
theorem witness_Proc1Completes :
    StateOk s1 ∧ s1.cfg.variant = .v1 ∧ s1.inst0.inited = true ∧ s1.inst0.bypass = false := ⟨s1_ok, rfl, rfl, rfl⟩
theorem witness_Proc1ComputesTheRecurrence :
    StateOk s1 ∧ s1.cfg.rounding = .exact ∧ s1.cfg.variant = .v1 ∧ s1.inst0.inited = true ∧ s1.inst0.bypass = false :=
  ⟨s1_ok, rfl, rfl, rfl, rfl⟩
theorem witness_Proc1StoresItsInput :
    StateOk s1 ∧ s1.cfg.rounding = .exact ∧ s1.cfg.variant = .v1 ∧ s1.inst0.inited = true ∧ s1.inst0.bypass = false ∧
    ∃ t, exec (.proc1 true) s1 = .next t := ⟨s1_ok, rfl, rfl, rfl, rfl, exists_next (by decide +kernel)⟩
/-- Both cases of the wet sample: `n = 2 < b = 3` and `n = 3 = b`. -/
theorem witness_DelayReadBack :
    StateOk s1Still ∧ s1Still.cfg.rounding = .exact ∧ s1Still.cfg.variant = .v1 ∧ s1Still.inst0.inited = true ∧
    s1Still.inst0.bypass = false ∧ s1Still.inst0.depth = 0 ∧ s1Still.v1.base = (3 : Nat) ∧
    s1Still.cfg.v1MinDelay ≤ ((3 : Nat) : Rat) ∧ ((3 : Nat) : Rat) ≤ v1MaxDelayAt s1Still.cfg s1Still.inst0.cap.toNat ∧
    (∃ t, exec (.proc1 true) s1Still = .next t) ∧ 2 < s1Still.cfg.blockN ∧ 3 < s1Still.cfg.blockN := by
  refine ⟨s1Still_ok, rfl, rfl, rfl, rfl, rfl, ?_, ?_, ?_, exists_next (by decide +kernel), by decide, by decide⟩
  · norm_num [s1Still, s1, v1State, State.resetWith, V1Regs.reset, t1]
  · norm_num [s1Still, s1, v1State, State.resetWith, t1]
  · show ((3 : Nat) : Rat) ≤ ((16 : Nat) : Rat) - 2
    norm_num
/-- The ranges of rule R162 at their ends: below 1/10, just above 1/10, at 5 and above 5. -/
theorem witness_SetRateV1 :
    s1.cfg.variant = .v1 ∧
    ((0x00001999#32).toInt : Rat) / 65536 < 1 / 10 ∧ 1 / 10 ≤ ((0x0000199A#32).toInt : Rat) / 65536 ∧
    ((0x00050000#32).toInt : Rat) / 65536 = 5 ∧ 5 < ((0x00050001#32).toInt : Rat) / 65536 :=
  ⟨rfl, by decide +kernel, by decide +kernel, by decide +kernel, by decide +kernel⟩
/-- The ranges of a value in [0, 1] at their ends: below 0, at 0, at 1 and above 1. -/
theorem unit_boundaries :
    ((0xFFFFFFFF#32).toInt : Rat) / 65536 < 0 ∧ ((0x00000000#32).toInt : Rat) / 65536 = 0 ∧
    ((0x00010000#32).toInt : Rat) / 65536 = 1 ∧ 1 < ((0x00010001#32).toInt : Rat) / 65536 :=
  ⟨by decide +kernel, by decide +kernel, by decide +kernel, by decide +kernel⟩
theorem witness_SetDepth : s1.cfg.variant = .v1 ∧ s2.cfg.variant = .v2 := ⟨rfl, rfl⟩
theorem witness_SetMix :
    s1.cfg.variant = .v1 ∧ s1.cfg.rounding = .exact ∧ RoundingAdmissible s1.cfg ∧
    roundReal s1.cfg (1 / 2 * 256) = 1 / 2 * 256 := ⟨rfl, rfl, roundingAdmissible_of_exact rfl, rfl⟩
theorem witness_SetBypass : s1.cfg.variant = .v1 ∧ s2.cfg.variant = .v2 := ⟨rfl, rfl⟩
theorem witness_GetLen : s1.cfg.variant = .v1 ∧ s2.cfg.variant = .v2 := ⟨rfl, rfl⟩
theorem witness_QuadratureIsKept :
    s1.cfg.rounding = .exact ∧ s1.v1.phR = fracPart (s1.v1.phL + 1 / 4) ∧
    ∃ t, step (withInput s1 [.command 0x2000000000000001#64]) = .next t :=
  ⟨rfl, by decide +kernel, exists_next (by decide +kernel)⟩

/-! ## Variant 2 -/

theorem witness_Init2Succeeds : s2.cfg.variant = .v2 ∧ 32 ≤ (32#24).toNat := by decide
/-- Each clause on the latch: not touched, opened, counted on, invalidated, and committed. -/
theorem witness_Proc2PassesThrough :
    let off := { s2 with inst1 := { v2Inst true with mode := .off } }
    let byp := fun l : Latch =>
      { s2 with inst0 := { v2Inst false with bypass := true }, cfg := { t2a with bypassTouchesLatch := true }, latch := l }
    (off.cfg.variant = .v2 ∧ (off.inst .s1).inited = true ∧ (off.inst .s1).mode = .off ∧
      off.cfg.bypassTouchesLatch = false) ∧
    (∀ l, (byp l).cfg.variant = .v2 ∧ ((byp l).inst .s0).inited = true ∧ ((byp l).inst .s0).bypass = true ∧
      (byp l).cfg.bypassTouchesLatch = true ∧ (byp l).latch = l) ∧
    (∃ l : Latch, l.valid = false) ∧ (∃ l : Latch, l.valid = true ∧ l.count = 0) ∧
    (∃ l : Latch, l.valid = true ∧ l.count ≠ 0 ∧ l.ready = false) ∧
    (∃ l : Latch, l.valid = true ∧ l.count ≠ 0 ∧ l.ready = true) :=
  ⟨⟨rfl, rfl, rfl, rfl⟩, fun _ => ⟨rfl, rfl, rfl, rfl, rfl⟩, ⟨latchOf 0 false 0 0 false 0, rfl⟩,
    ⟨latchOf 0 true 0 0 false 0, rfl, rfl⟩, ⟨latchOf 0 true 0 0 false 1, rfl, by decide, rfl⟩,
    ⟨latchOf 0 true 0 (1 / 2) true 1, rfl, by decide, rfl⟩⟩
theorem s2_long (c : Slot) : LineLongEnough (s2.inst c) := by
  cases c <;> show (24 : Rat) ≤ ((64 : Nat) : Rat) - 1 <;> norm_num
theorem witness_Proc2Completes :
    StateOk s2 ∧ s2.cfg.variant = .v2 ∧ TakesPart s2 .s1 ∧ LineLongEnough (s2.inst .s1) :=
  ⟨s2_ok, rfl, ⟨rfl, rfl⟩, s2_long .s1⟩
theorem witness_Proc2ComputesTheRecurrence :
    StateOk s2 ∧ s2.cfg.rounding = .exact ∧ s2.cfg.variant = .v2 ∧ TakesPart s2 .s1 := ⟨s2_ok, rfl, rfl, ⟨rfl, rfl⟩⟩
/-- The ranges of rule R184 at their ends, with the limits 1/10 and 250 of T2a. -/
theorem witness_SetRateV2 :
    s2.cfg.variant = .v2 ∧ s2.cfg.v2RateMin ≤ s2.cfg.v2RateMax ∧
    ((0x00001999#32).toInt : Rat) / 65536 < s2.cfg.v2RateMin ∧
    s2.cfg.v2RateMin ≤ ((0x0000199A#32).toInt : Rat) / 65536 ∧
    ((0x00FA0000#32).toInt : Rat) / 65536 = s2.cfg.v2RateMax ∧
    s2.cfg.v2RateMax < ((0x00FA0001#32).toInt : Rat) / 65536 :=
  ⟨rfl, by decide +kernel, by decide +kernel, by decide +kernel, by decide +kernel, by decide +kernel⟩
/-- Each clause at a boundary: operands 0, 1, 2 and 3. -/
theorem witness_SetModeLoadsTheTables :
    s2.cfg.variant = .v2 ∧ (0#32).toInt ≤ 0 ∧
    ((1#32).toInt = 1 ∧ ModeRowAdmissible s2.cfg s2.cfg.mode1) ∧
    ((2#32).toInt = 2 ∧ ModeRowAdmissible s2.cfg s2.cfg.mode2) ∧
    (3 ≤ (3#32).toInt ∧ ModeRowAdmissible s2.cfg s2.cfg.mode3) :=
  ⟨rfl, by decide, ⟨by decide, t2a_admissible.mode1_ok⟩, ⟨by decide, t2a_admissible.mode2_ok⟩,
    ⟨by decide, t2a_admissible.mode3_ok⟩⟩
theorem witness_PartnerIsNotWritten :
    addressedSlot (.proc2 .s0 true) = some .s0 ∧ Slot.s1 ≠ .s0 ∧ ∃ t, exec (.proc2 .s0 true) s2 = .next t :=
  ⟨rfl, by decide, exists_next (by decide +kernel)⟩
/-- Both clauses: a command that answers, and one that stops on a state no run reaches (`WIDX = CAP`). -/
theorem witness_PartnerIsNotRead :
    addressedSlot (.proc2 .s0 true) = some .s0 ∧ Slot.s1 ≠ .s0 ∧ (∃ t, exec (.proc2 .s0 true) s2 = .next t) ∧
    exec (.proc2 .s0 true) { s2 with inst0 := { v2Inst false with widx := 64 } } = .fault .noSuchDelayWord :=
  ⟨rfl, by decide, exists_next (by decide +kernel), rfl⟩

/-! ## The latch -/

theorem witness_LatchWriters :
    nextIs (exec (.syncph 1) s2) (fun t => t.latch != s2.latch) = true ∧
    nextIs (exec (.proc2 .s1 true) { s2 with latch := latchOf 0 true 0 (1 / 2) true 1 })
      (fun t => t.latch.phase != 0) = true := ⟨by decide +kernel, by decide +kernel⟩
theorem witness_SyncPhaseWritesThePhase : s2.cfg.variant = .v2 := rfl
theorem witness_GetPhaseReturnsThePhase :
    s2.cfg.variant = .v2 ∧ IsPhase s2.latch.phase ∧ ∃ t, exec (.syncph 0xFFFFFFFF) s2 = .next t :=
  ⟨rfl, latchReset_ok.phase_ok, _, rfl⟩
theorem witness_NormalTickAdvancesOneBlock :
    StateOk s2 ∧ s2.cfg.rounding = .exact ∧ s2.cfg.variant = .v2 ∧ Paired s2 .s0 .s1 := ⟨s2_ok, rfl, rfl, s2_paired⟩
theorem witness_TickOrderDoesNotMatter :
    StateOk s2 ∧ s2.cfg.rounding = .exact ∧ s2.cfg.variant = .v2 ∧ Paired s2 .s0 .s1 :=
  witness_NormalTickAdvancesOneBlock
/-- A tick with placements at the last word of each window, and a reversed one with no input on slot 1. -/
theorem witness_PhaseConservation :
    let ticks : List Tick := [⟨false, true, true, [(.s0, 3, 7), (.s1, 3, -7)], [(.s1, 0, 1)]⟩, ⟨true, true, false, [], []⟩]
    let s := withInput s2 (ticks.flatMap Tick.moves)
    StateOk s ∧ s.cfg.rounding = .exact ∧ s.cfg.variant = .v2 ∧ Paired s .s0 .s1 ∧
    (∀ k ∈ ticks, k.Fits s.cfg.blockN) ∧ s.input = ticks.flatMap Tick.moves := by
  refine ⟨{ s2_ok with }, rfl, rfl, ⟨by decide, ⟨rfl, rfl⟩, ⟨rfl, rfl⟩, rfl, rfl, rfl⟩, ?_, rfl⟩
  unfold Tick.Fits
  decide
/-- A primary and a right instance that run alone. -/
theorem witness_SoloInstances :
    StateOk s2 ∧ s2.cfg.rounding = .exact ∧ s2.cfg.variant = .v2 ∧ TakesPart s2 .s0 ∧ TakesPart s2 .s1 ∧
    (s2.inst .s0).isRight = false ∧ (s2.inst .s1).isRight = true ∧ s2.latch.valid = false :=
  ⟨s2_ok, rfl, rfl, ⟨rfl, rfl⟩, ⟨rfl, rfl⟩, rfl, rfl, rfl⟩

/-! ## The datapath -/

/-- The delay at both ends of the safe band. -/
theorem witness_IntegerDelayReadsTheStoredWord :
    RoundingAdmissible s1.cfg ∧ (s1.inst .s0).widx.toNat < (s1.inst .s0).cap.toNat ∧
    0 < (s1.inst .s0).cap.toNat ∧ 15 < (s1.inst .s0).cap.toNat :=
  ⟨roundingAdmissible_of_exact rfl, by decide, by decide, by decide⟩
theorem witness_FractionalDelayInterpolates :
    s1.cfg.rounding = .exact ∧ (s1.inst .s0).widx.toNat < (s1.inst .s0).cap.toNat ∧
    14 + 1 < (s1.inst .s0).cap.toNat ∧ (0 : Rat) < 1 / 2 ∧ (1 / 2 : Rat) < 1 :=
  ⟨rfl, by decide, by decide, by norm_num, by norm_num⟩
theorem witness_ReadStaysInSampleRange :
    s1.cfg.rounding = .exact ∧ (s1.inst .s0).widx.toNat < (s1.inst .s0).cap.toNat := ⟨rfl, by decide⟩
theorem witness_WrapIsCanonical : t1.rounding = .exact := rfl
theorem witness_FullPeriodIsIdentity : t1.rounding = .exact ∧ IsPhase (3 / 10) ∧ ((20 : Nat) : Rat) * (1 / 20) = 1 :=
  ⟨rfl, by norm_num [IsPhase], by norm_num⟩
/-- Phases on both sides of the turning point and at the two crossings. -/
theorem witness_TriangleWaveforms :
    t1.rounding = .exact ∧ IsPhase 0 ∧ IsPhase (1 / 4) ∧ IsPhase (1 / 2) ∧ IsPhase (3 / 4) := by
  refine ⟨rfl, ?_, ?_, ?_, ?_⟩ <;> norm_num [IsPhase]
theorem witness_ModulationInUnitInterval : RoundingAdmissible t1 ∧ IsPhase (1 / 2) :=
  ⟨roundingAdmissible_of_exact rfl, by norm_num [IsPhase]⟩
/-- Coefficients 0, 1/2 and 1. -/
theorem witness_FilterIsConvex :
    t1.rounding = .exact ∧ (0 : Rat) ≤ 0 ∧ (0 : Rat) ≤ 1 / 2 ∧ (1 / 2 : Rat) ≤ 1 ∧ (1 : Rat) ≤ 1 := by
  refine ⟨rfl, ?_, ?_, ?_, ?_⟩ <;> norm_num
/-- The adopted constants, and arguments at, below and beyond the threshold. -/
theorem witness_SoftClipShape :
    t2a.rounding = .exact ∧ 0 < t2a.satT ∧ 0 ≤ t2a.satK ∧ t2a.satT = 16000 ∧ t2a.satK = 3 / 10 ∧
    -t2a.satT ≤ -16000 ∧ 16000 ≤ t2a.satT ∧ t2a.satT < 16001 := by
  refine ⟨rfl, ?_, ?_, ?_, ?_, ?_, ?_, ?_⟩ <;> norm_num [t2a, Config.reference]
/-- The weights at both ends, and the wet value at both ends of the sample range. -/
theorem witness_MixIsExact :
    (256#9).toNat + (0#9).toNat = 256 ∧ (0#9).toNat + (256#9).toNat = 256 ∧
    (-32768 : Int) ≤ -32768 ∧ (32767 : Int) ≤ 32767 := by decide
theorem witness_V1DelayStaysInBand :
    StateOk s1 ∧ s1.cfg.variant = .v1 ∧ s1.inst0.inited = true ∧ s1.cfg.rounding = .exact ∧
    s1.cfg.v1MinDelay ≤ s1.v1.base + 0 * s1.inst0.depth * s1.cfg.v1ModRange ∧
    s1.v1.base + 0 * s1.inst0.depth * s1.cfg.v1ModRange ≤ v1MaxDelayAt s1.cfg s1.inst0.cap.toNat := by
  refine ⟨s1_ok, rfl, rfl, rfl, ?_, ?_⟩
  · norm_num [s1, v1State, State.resetWith, V1Regs.reset, t1]
  · show ((3 : Nat) : Rat) + 0 * 1 * 2 ≤ ((16 : Nat) : Rat) - 2
    norm_num
theorem witness_V2DelayStaysInRange :
    t2a.rounding = .exact ∧ (v2Inst true).minds ≤ (v2Inst true).maxds ∧ 0 ≤ t2a.v2RightOffset ∧
    (v2Inst true).minds + t2a.v2RightOffset ≤ (v2Inst true).maxds ∧ (v2Inst true).depth = 1 := by
  refine ⟨rfl, ?_, ?_, ?_, rfl⟩ <;> norm_num [v2Inst, t2a, Config.reference]

/-! ## Invariants -/

/-- The configuration of `State.reset` itself, and the one of T2a. -/
theorem witness_ResetIsWellFormed :
    (ConfigAdmissible Config.reference ∧ rateMin Config.reference ≤ 1 / 2 ∧ 1 / 2 ≤ rateMax Config.reference) ∧
    (ConfigAdmissible t2a ∧ rateMin t2a ≤ 1 / 2 ∧ 1 / 2 ≤ rateMax t2a) ∧
    Memory.wf [] = true ∧ Memory.wf (memoryOf block) = true := by
  refine ⟨⟨reference_admissible, ?_, ?_⟩, ⟨t2a_admissible, ?_, ?_⟩, Memory.wf_nil, block_wf⟩
  · norm_num [rateMin, Config.reference, v1RateMin]
  · norm_num [rateMax, Config.reference, v1RateMax]
  · norm_num [rateMin, t2a]
  · norm_num [rateMax, t2a]
theorem witness_StepKeepsStateWellFormed :
    StateOk (withInput s2 [.command 0x2000000000000001#64]) ∧
    ∃ t, step (withInput s2 [.command 0x2000000000000001#64]) = .next t :=
  ⟨{ s2_ok with }, exists_next (by decide +kernel)⟩
theorem witness_StepKeepsFiltersInRange :
    StateOk s2 ∧ s2.cfg.rounding = .exact ∧ FiltersOk s2.inst0 ∧ FiltersOk s2.inst1 ∧ ∃ t, step s2 = .next t := by
  refine ⟨s2_ok, rfl, ?_, ?_, _, rfl⟩ <;> constructor <;> norm_num [s2, v2State, v2Inst, Inst.reset]
theorem witness_EveryCommandIsAnswered :
    StateOk (withInput s2 [.command 0x2800000000000001#64]) ∧
    (withInput s2 [.command 0x2800000000000001#64]).input = .command 0x2800000000000001#64 :: [] ∧
    ∀ c, TakesPart s2 c → LineLongEnough (s2.inst c) :=
  ⟨{ s2_ok with }, rfl, fun c _ => s2_long c⟩

end Sys2Proof.Tests
end

/-! # Proofs: the state after reset (`10_state.md`) -/

namespace Sys2Proof.Machine

/-! ## What a reset device holds -/

/-- Both engines come out of reset alike. -/
@[simp] theorem State.resetWith_inst (c : Config) (d0 d1 b0 b1 : Memory) (k : Slot) :
    (State.resetWith c d0 d1 b0 b1).inst k = Inst.reset c := by
  cases k with
  | s0 => rfl
  | s1 => rfl

@[simp] theorem State.resetWith_v1 (c : Config) (d0 d1 b0 b1 : Memory) :
    (State.resetWith c d0 d1 b0 b1).v1 = V1Regs.reset c := rfl

@[simp] theorem State.resetWith_latch (c : Config) (d0 d1 b0 b1 : Memory) :
    (State.resetWith c d0 d1 b0 b1).latch = Latch.reset := rfl

@[simp] theorem State.resetWith_cfg (c : Config) (d0 d1 b0 b1 : Memory) :
    (State.resetWith c d0 d1 b0 b1).cfg = c := rfl

/-- Rule R49's `(1/2)/FS_HZ`, a REAL operation and so rounded (rule R8). -/
theorem Inst.reset_phinc (c : Config) : (Inst.reset c).phinc = roundReal c ((1 / 2) / c.fsHz) := rfl

/-! ## The obligation -/

/-- Settles O15: the two engines are one case, and of its registers only `PHINC` is computed. -/
theorem resetValues : Obligations.ResetValues := by
  intro c d0 d1 b0 b1 s
  have engine (k : Slot) : s.inst k = Inst.reset c := State.resetWith_inst c d0 d1 b0 b1 k
  refine ⟨fun k => ?_, State.resetWith_v1 c d0 d1 b0 b1, State.resetWith_latch c d0 d1 b0 b1,
    State.resetWith_cfg c d0 d1 b0 b1⟩
  rw [engine k]
  exact ⟨rfl, rfl, rfl, rfl, Inst.reset_phinc c, rfl, rfl, rfl, rfl, rfl, rfl, rfl, rfl⟩

end Sys2Proof.Machine

/-! # Proofs: what `SETBYP` stores (`30_encoding.md`) -/

namespace Sys2Proof.Machine

/-! ## A command that answers `(OK, 1, 0)` -/

/-- Rule R96 bit by bit: `respond(1, 0)` is the word `(OK, 1, 0)`. -/
theorem responseWord_ok_true_zero : responseWord .ok true 0 = okWord := rfl

/-- How every parameter setter ends on a device of its own variant. -/
theorem onVariant_respond_ok {v : Variant} {s : State} (t : State) (h : s.cfg.variant = v) :
    onVariant v s (.ok (respond true 0 t)) = .next (t.setResp okWord) := by
  rw [onVariant_of_eq h, outcomeOf_ok, respond_eq, responseWord_ok_true_zero]

/-! ## The two forms of `SETBYP` -/

theorem boolOperand_eq_true_iff (b : Operand) : boolOperand b = true ↔ b ≠ 0 := bne_iff_ne

theorem exec_setbyp1_of_v1 {s : State} (b : Operand) (h : s.cfg.variant = .v1) :
    exec (.setbyp1 b) s =
      .next ((s.setInst .s0 { s.inst .s0 with bypass := boolOperand b }).setResp okWord) :=
  onVariant_respond_ok _ h

theorem exec_setbyp2_of_v2 {s : State} (ch : Slot) (b : Operand) (h : s.cfg.variant = .v2) :
    exec (.setbyp2 ch b) s =
      .next ((s.setInst ch { s.inst ch with bypass := boolOperand b }).setResp okWord) :=
  onVariant_respond_ok _ h

/-! ## The obligation -/

/-- Settles O27: both variants store `boolOperand b`; variant 1 is the case of slot 0. -/
theorem setBypass : Obligations.SetBypass := by
  intro s ch b
  exact ⟨boolOperand b, boolOperand_eq_true_iff b, exec_setbyp1_of_v1 b, exec_setbyp2_of_v2 ch b⟩

end Sys2Proof.Machine

/-! # Proofs: INIT, PROC and the parameter commands at their edges (`43_engine_v1.md`) -/

namespace Sys2Proof.Machine

/-! ## The responses (rule R96) -/

theorem responseWord_initFail : responseWord .initFail false 0 = initFailWord := rfl

theorem responseWord_notInit : responseWord .notInit false 0 = notInitWord := rfl

theorem responseWord_ok_true (value : BitVec 32) : responseWord .ok true value = valueWord value := rfl

/-- How a failed command ends on a device of its own variant (rule R220). -/
theorem onVariant_raiseStatus {v : Variant} {s : State} (st : Status) (h : s.cfg.variant = v) :
    onVariant v s (.ok (raiseStatus st s)) = .next (s.setResp (responseWord st false 0)) := by
  rw [onVariant_of_eq h, outcomeOf_ok, raiseStatus_eq]

/-- How a query ends on a device of its own variant. -/
theorem onVariant_respond_value {v : Variant} {s : State} (value : BitVec 32) (h : s.cfg.variant = v) :
    onVariant v s (.ok (respond true value s)) = .next (s.setResp (valueWord value)) := by
  rw [onVariant_of_eq h, outcomeOf_ok, respond_eq, responseWord_ok_true]

/-! ## INIT (rules R151, R152, R171) -/

/-- Rule R151's condition, as the model computes it. -/
theorem init1Refuses_iff (len : BitVec 24) (p0 p1 : Bool) :
    (!p0 || !p1 || decide (len.toNat < v1MinLen)) = true ↔ p0 = false ∨ p1 = false ∨ len.toNat < v1MinLen := by
  simp [or_assoc]

/-- Rule R171's condition, as the model computes it. -/
theorem init2Refuses_iff (len : BitVec 24) (p0 : Bool) :
    (!p0 || decide (len.toNat < v2MinLen)) = true ↔ p0 = false ∨ len.toNat < v2MinLen := by
  simp

theorem exec_init1_of_refused {s : State} {len : BitVec 24} {p0 p1 : Bool} (hv : s.cfg.variant = .v1)
    (h : p0 = false ∨ p1 = false ∨ len.toNat < v1MinLen) :
    exec (.init1 len p0 p1) s = .next (s.setResp initFailWord) :=
  calc exec (.init1 len p0 p1) s
      = onVariant .v1 s (.ok (raiseStatus .initFail s)) :=
        congrArg (onVariant .v1 s) (if_pos ((init1Refuses_iff len p0 p1).2 h))
    _ = .next (s.setResp initFailWord) := by rw [onVariant_raiseStatus _ hv, responseWord_initFail]

theorem exec_init2_of_refused {s : State} {len : BitVec 24} {p0 : Bool} (ch : Slot) (right : Bool)
    (hv : s.cfg.variant = .v2) (h : p0 = false ∨ len.toNat < v2MinLen) :
    exec (.init2 ch len p0 right) s = .next (s.setResp initFailWord) :=
  calc exec (.init2 ch len p0 right) s
      = onVariant .v2 s (.ok (raiseStatus .initFail s)) :=
        congrArg (onVariant .v2 s) (if_pos ((init2Refuses_iff len p0).2 h))
    _ = .next (s.setResp initFailWord) := by rw [onVariant_raiseStatus _ hv, responseWord_initFail]

/-- The registers and delay spaces that a successful `INIT1` leaves (rule R152). -/
theorem exec_init1_of_accepted {s : State} {len : BitVec 24} (hv : s.cfg.variant = .v1)
    (h : v1MinLen ≤ len.toNat) :
    exec (.init1 len true true) s = .next { s with
      inst0 := { s.inst0 with inited := true, cap := len, widx := 0 }
      v1 := { s.v1 with base := s.cfg.v1BaseDelay, phL := 0, phR := 1 / 4 }
      dly0 := Memory.zeroWords s.dly0 len.toNat
      dly1 := Memory.zeroWords s.dly1 len.toNat
      resp := some okWord } := by
  have accepted : ¬ (!true || !true || decide (len.toNat < v1MinLen)) = true := by
    rw [init1Refuses_iff]
    simpa using h
  exact (congrArg (onVariant .v1 s) (if_neg accepted)).trans (onVariant_respond_ok _ hv)

/-- Settles O16: both delay spaces are zero filled, and `Memory.zeroWords` keeps the bytes above. -/
theorem init1Succeeds : Obligations.Init1Succeeds := by
  intro s len hv hlen
  refine ⟨_, exec_init1_of_accepted hv hlen, rfl, fun c i hi => ?_, fun c a ha => ?_⟩
  · have cleared (m : Memory) : Memory.readWord (Memory.zeroWords m len.toNat) i = 0 := by
      rw [Memory.readWord_zeroWords, if_pos hi]
    cases c with
    | s0 => exact cleared s.dly0
    | s1 => exact cleared s.dly1
  · have kept (m : Memory) : Memory.readByte (Memory.zeroWords m len.toNat) a = Memory.readByte m a := by
      rw [Memory.readByte_zeroWords, if_neg (by omega)]
    cases c with
    | s0 => exact kept s.dly0
    | s1 => exact kept s.dly1

/-- Settles O17: each variant's refusal ends the command with the status alone. -/
theorem initFails : Obligations.InitFails :=
  fun _ ch _ _ _ right => ⟨exec_init1_of_refused, exec_init2_of_refused ch right⟩

/-! ## PROC on an uninitialised instance (rules R155, R177) -/

theorem exec_proc1_of_not_inited {s : State} (inValid : Bool) (hv : s.cfg.variant = .v1)
    (hi : s.inst0.inited = false) : exec (.proc1 inValid) s = .next (s.setResp notInitWord) :=
  calc exec (.proc1 inValid) s
      = onVariant .v1 s (.ok (raiseStatus .notInit s)) := congrArg (onVariant .v1 s) (if_pos hi)
    _ = .next (s.setResp notInitWord) := by rw [onVariant_raiseStatus _ hv, responseWord_notInit]

theorem exec_proc2_of_not_inited {s : State} (ch : Slot) (inValid : Bool) (hv : s.cfg.variant = .v2)
    (hi : (s.inst ch).inited = false) : exec (.proc2 ch inValid) s = .next (s.setResp notInitWord) :=
  calc exec (.proc2 ch inValid) s
      = onVariant .v2 s (.ok (raiseStatus .notInit s)) := congrArg (onVariant .v2 s) (if_pos hi)
    _ = .next (s.setResp notInitWord) := by rw [onVariant_raiseStatus _ hv, responseWord_notInit]

/-- Settles O18: the status is raised before the zero fill, so `IN_VALID` does not matter. -/
theorem procUninitialised : Obligations.ProcUninitialised :=
  fun _ ch inValid => ⟨exec_proc1_of_not_inited inValid, exec_proc2_of_not_inited ch inValid⟩

/-! ## PROC1 bypassed (rule R159) -/

theorem substituteSilence_true (c : Slot) (s : State) : substituteSilence c true s = s := rfl

theorem substituteSilence_false (c : Slot) (s : State) :
    substituteSilence c false s = s.setBlk c (Memory.zeroWords (s.blk c) s.cfg.blockN) := rfl

/-- The zero fill of a missing block touches its own block window only (rule R156). -/
theorem substituteSilence_eq_setBlk (c : Slot) (inValid : Bool) (s : State) :
    substituteSilence c inValid s = s.setBlk c ((substituteSilence c inValid s).blk c) := by
  cases inValid with
  | false => rw [substituteSilence_false, State.setBlk_blk_same]
  | true => cases c <;> rfl

/-- The bytes of the window above the block survive the zero fill (rule R156). -/
theorem readByte_substituteSilence_of_le (c : Slot) (inValid : Bool) (s : State) {a : Nat}
    (ha : 2 * s.cfg.blockN ≤ a) :
    Memory.readByte ((substituteSilence c inValid s).blk c) a = Memory.readByte (s.blk c) a := by
  cases inValid with
  | false =>
    rw [substituteSilence_false, State.setBlk_blk_same, Memory.readByte_zeroWords, if_neg (by omega)]
  | true => rw [substituteSilence_true]

theorem exec_proc1_of_bypass {s : State} (inValid : Bool) (hv : s.cfg.variant = .v1)
    (hi : s.inst0.inited = true) (hb : s.inst0.bypass = true) :
    exec (.proc1 inValid) s = .next ((substituteSilence .s0 inValid s).setResp okWord) := by
  have inited : ¬ s.inst0.inited = false := by simp [hi]
  calc exec (.proc1 inValid) s
      = onVariant .v1 s (.ok (respond true 0 (substituteSilence .s0 inValid s))) :=
        congrArg (onVariant .v1 s) ((if_neg inited).trans (if_pos hb))
    _ = .next ((substituteSilence .s0 inValid s).setResp okWord) := onVariant_respond_ok _ hv

/-- Settles O19: what is left of `PROC1` is the zero fill, which an input block makes the identity. -/
theorem proc1Bypassed : Obligations.Proc1Bypassed := by
  intro s inValid hv hi hb
  refine ⟨_, exec_proc1_of_bypass inValid hv hi hb, ?_, ?_, ?_⟩
  · exact congrArg (State.setResp · okWord) (substituteSilence_eq_setBlk .s0 inValid s)
  · rintro rfl a
    rfl
  · rintro rfl
    exact ⟨fun _ hn => silence_read .s0 false s hn, fun _ ha => readByte_substituteSilence_of_le .s0 false s ha⟩

/-! ## SETRATE and SETDEPTH (rules R162, R163, R185) -/

/-- The three ranges of a clamp (rule R16). -/
theorem clampReal_spec {lo hi : Rat} (x : Rat) (h : lo ≤ hi) :
    (x < lo → clampReal x lo hi = lo) ∧ (hi < x → clampReal x lo hi = hi) ∧
    (lo ≤ x → x ≤ hi → clampReal x lo hi = x) :=
  ⟨fun hx => if_pos hx, fun hx => (if_neg (by linarith)).trans (if_pos hx), clampReal_of_mem⟩

theorem exec_setrate1_of_v1 {s : State} (q : Operand) (h : s.cfg.variant = .v1) :
    exec (.setrate1 q) s = .next ((s.setInst .s0
      { s.inst0 with
        rate := clampReal (q16 q) v1RateMin v1RateMax
        phinc := phaseIncrement s.cfg (clampReal (q16 q) v1RateMin v1RateMax) }).setResp okWord) :=
  onVariant_respond_ok _ h

theorem exec_setdepth1_of_v1 {s : State} (q : Operand) (h : s.cfg.variant = .v1) :
    exec (.setdepth1 q) s = .next ((s.setInst .s0 { s.inst0 with depth := clamp01 (q16 q) }).setResp okWord) :=
  onVariant_respond_ok _ h

theorem exec_setdepth2_of_v2 {s : State} (ch : Slot) (q : Operand) (h : s.cfg.variant = .v2) :
    exec (.setdepth2 ch q) s =
      .next ((s.setInst ch { s.inst ch with depth := clamp01 (q16 q) }).setResp okWord) :=
  onVariant_respond_ok _ h

/-- Settles O24: the rate stored is the operand clamped into [1/10, 5]. -/
theorem setRateV1 : Obligations.SetRateV1 := by
  intro s q hv
  have ordered : v1RateMin ≤ v1RateMax := by
    show (1 / 10 : Rat) ≤ 5
    norm_num
  obtain ⟨below, above, inside⟩ := clampReal_spec (q16 q) ordered
  exact ⟨_, below, above, inside, exec_setrate1_of_v1 q hv⟩

/-- Settles O25: both variants store `clamp01` of the operand. -/
theorem setDepth : Obligations.SetDepth := by
  intro s ch q
  obtain ⟨below, above, inside⟩ := clampReal_spec (q16 q) (zero_le_one (α := Rat))
  exact ⟨_, below, above, inside, exec_setdepth1_of_v1 q, exec_setdepth2_of_v2 ch q⟩

/-! ## GETLEN (rules R166, R188) -/

/-- The capacity zero-extended, as the model and as the response word write it. -/
theorem setWidth_eq_zero_append (cap : BitVec 24) : cap.setWidth 32 = 0#8 ++ cap :=
  BitVec.setWidth_eq_append (by decide)

theorem exec_getlen1_of_v1 {s : State} (h : s.cfg.variant = .v1) :
    exec .getlen1 s = .next (s.setResp (valueWord (0#8 ++ s.inst0.cap))) := by
  rw [← setWidth_eq_zero_append]
  exact onVariant_respond_value _ h

theorem exec_getlen2_of_v2 {s : State} (ch : Slot) (h : s.cfg.variant = .v2) :
    exec (.getlen2 ch) s = .next (s.setResp (valueWord (0#8 ++ (s.inst ch).cap))) := by
  rw [← setWidth_eq_zero_append]
  exact onVariant_respond_value _ h

/-- Settles O28: the one value both variants answer is the capacity zero-extended. -/
theorem getLen : Obligations.GetLen :=
  fun _ ch => ⟨exec_getlen1_of_v1, exec_getlen2_of_v2 ch⟩

end Sys2Proof.Machine

/-! # Proofs: INIT, SETRATE and SETMODE of variant 2 (`44_engine_v2.md`) -/

namespace Sys2Proof.Machine

/-! ## INIT2 (rule R172) -/

/-- The registers and the delay space that a successful `INIT2` leaves (rule R172). -/
theorem exec_init2_of_accepted {s : State} {len : BitVec 24} (ch : Slot) (right : Bool)
    (hv : s.cfg.variant = .v2) (h : v2MinLen ≤ len.toNat) :
    exec (.init2 ch len true right) s = .next
      (((s.setInst ch
        { s.inst ch with inited := true, cap := len, widx := 0, isRight := right, preY := 0, postY := 0 }).setDly
        ch (Memory.zeroWords (s.dly ch) len.toNat)).setResp okWord) := by
  have accepted : ¬ (!true || decide (len.toNat < v2MinLen)) = true := by
    rw [init2Refuses_iff]
    simpa using h
  exact (congrArg (onVariant .v2 s) (if_neg accepted)).trans (onVariant_respond_ok _ hv)

/-- Settles O30: the delay space is zero filled, and `Memory.zeroWords` keeps the bytes above. -/
theorem init2Succeeds : Obligations.Init2Succeeds := by
  intro s ch len right hv hlen
  refine ⟨_, exec_init2_of_accepted ch right hv hlen, fun i hi => ?_, fun a ha => ?_⟩
  · rw [Memory.readWord_zeroWords, if_pos hi]
  · rw [Memory.readByte_zeroWords, if_neg (by omega)]

/-! ## SETRATE (rule R184) -/

theorem exec_setrate2_of_v2 {s : State} (ch : Slot) (q : Operand) (h : s.cfg.variant = .v2) :
    exec (.setrate2 ch q) s = .next ((s.setInst ch
      { s.inst ch with
        rate := clampReal (q16 q) s.cfg.v2RateMin s.cfg.v2RateMax
        phinc := phaseIncrement s.cfg (clampReal (q16 q) s.cfg.v2RateMin s.cfg.v2RateMax) }).setResp okWord) :=
  onVariant_respond_ok _ h

/-- Settles O34: the rate stored is the operand clamped into the configured range. -/
theorem setRateV2 : Obligations.SetRateV2 := by
  intro s ch q hv ordered
  obtain ⟨below, above, inside⟩ := clampReal_spec (q16 q) ordered
  exact ⟨_, below, above, inside, exec_setrate2_of_v2 ch q hv⟩

/-! ## SETMODE (rules R90, R186) -/

theorem clampInt_of_le {v lo hi : Int} (hlo : lo ≤ hi) (h : v ≤ lo) : clampInt v lo hi = lo := by
  unfold clampInt
  split_ifs <;> omega

theorem clampInt_of_ge {v lo hi : Int} (hlo : lo ≤ hi) (h : hi ≤ v) : clampInt v lo hi = hi := by
  unfold clampInt
  split_ifs <;> omega

/-- Operands at most 0 ask for mode 0 (rule R90). -/
theorem modeOperand_of_nonpos {m : Operand} (h : m.toInt ≤ 0) : modeOperand m = .off :=
  congrArg modeOfInt (clampInt_of_le (by decide) h)

/-- Operands inside [0, 3] are the number of the mode asked for (rules R33, R90). -/
theorem modeOperand_of_mem {m : Operand} (h0 : 0 ≤ m.toInt) (h3 : m.toInt ≤ 3) :
    modeOperand m = modeOfInt m.toInt :=
  congrArg modeOfInt (clampInt_of_mem h0 h3)

/-- Operands of 3 and more ask for mode 3 (rule R90). -/
theorem modeOperand_of_three_le {m : Operand} (h : 3 ≤ m.toInt) : modeOperand m = .combined :=
  congrArg modeOfInt (clampInt_of_ge (by decide) h)

/-- Mode 0 has no table row (rule R186). -/
theorem withMode_off (c : Config) (i : Inst) : withMode c .off i = { i with mode := .off } := rfl

/-- A mode with an admissible row takes the row as it stands: neither clamp of rule R186 binds. -/
theorem withMode_of_row {c : Config} {mode : Mode} {row : ModeRow} (hrow : modeRow c mode = some row)
    (ok : ModeRowAdmissible c row) (i : Inst) :
    withMode c mode i =
      { i with
        mode := mode
        rate := row.rate
        phinc := phaseIncrement c row.rate
        depth := row.depth
        minds := rowMinDs c row
        maxds := rowMaxDs c row } := by
  have rate_kept : clampReal row.rate c.v2RateMin c.v2RateMax = row.rate :=
    clampReal_of_mem ok.rate_ge ok.rate_le
  have depth_kept : clamp01 row.depth = row.depth := clampReal_of_mem ok.depth_ge ok.depth_le
  simp only [withMode, hrow, rate_kept, depth_kept]

theorem exec_setmode_of_v2 {s : State} (ch : Slot) {m : Operand} {mode : Mode} (hv : s.cfg.variant = .v2)
    (hm : modeOperand m = mode) :
    exec (.setmode ch m) s = .next ((s.setInst ch (withMode s.cfg mode (s.inst ch))).setResp okWord) := by
  rw [← hm]
  exact onVariant_respond_ok _ hv

/-- Settles O35: each operand range selects its mode, and the mode its table row. -/
theorem setModeLoadsTheTables : Obligations.SetModeLoadsTheTables := by
  intro s ch m hv
  refine ⟨fun h => exec_setmode_of_v2 ch hv (modeOperand_of_nonpos h), fun mode row selected ok => ?_⟩
  obtain ⟨hmode, hrow⟩ : modeOperand m = mode ∧ modeRow s.cfg mode = some row := by
    rcases selected with ⟨h, rfl, rfl⟩ | ⟨h, rfl, rfl⟩ | ⟨h, rfl, rfl⟩
    · rw [modeOperand_of_mem (by omega) (by omega), h]
      exact ⟨rfl, rfl⟩
    · rw [modeOperand_of_mem (by omega) (by omega), h]
      exact ⟨rfl, rfl⟩
    · exact ⟨modeOperand_of_three_le h, rfl⟩
  rw [exec_setmode_of_v2 ch hv hmode, withMode_of_row hrow ok]
  rfl

end Sys2Proof.Machine

/-! # Proofs: `SYNCPH`, and the shared phase over many ticks (`45_sync_latch.md`) -/

namespace Sys2Proof.Machine

/-! ## SYNCPH (rule R203) -/

theorem exec_syncph_of_v2 {s : State} (p : Operand) (h : s.cfg.variant = .v2) :
    exec (.syncph p) s = .next ((s.setLatch { s.latch with phase := uq32 p }).setResp okWord) :=
  onVariant_respond_ok _ h

/-- Settles O39: the setter touches the latch's phase and the response only. -/
theorem syncPhaseWritesThePhase : Obligations.SyncPhaseWritesThePhase :=
  fun _ p hv => exec_syncph_of_v2 p hv

/-! ## What a tick keeps

`PROC2` writes of an engine's registers `WIDX`, `PRE_Y` and `POST_Y` (rule R180), and a placed sample none.
The other registers, which decide who takes part and how far a block advances, are the same throughout. -/

/-- An engine's registers with those that `PROC2` writes blanked. -/
def Inst.settings (i : Inst) : Inst := { i with widx := 0, preY := 0, postY := 0 }

/-- `t` is a well-formed state of the same device as `s`, with the same settings in both engines. -/
abbrev KeepsSettings (s t : State) : Prop :=
  StateOk t ∧ t.cfg = s.cfg ∧ ∀ c, (t.inst c).settings = (s.inst c).settings

section
variable {s t : State} (h : KeepsSettings s t) (c : Slot)
include h

theorem KeepsSettings.ok : StateOk t := h.1

theorem KeepsSettings.cfg : t.cfg = s.cfg := h.2.1

theorem KeepsSettings.settings : (t.inst c).settings = (s.inst c).settings := h.2.2 c

theorem KeepsSettings.isRight_eq : (t.inst c).isRight = (s.inst c).isRight :=
  (congrArg Inst.isRight (h.settings c) :)

theorem KeepsSettings.phinc_eq : (t.inst c).phinc = (s.inst c).phinc :=
  (congrArg Inst.phinc (h.settings c) :)

theorem KeepsSettings.takesPart (ht : TakesPart s c) : TakesPart t c :=
  ⟨(congrArg Inst.inited (h.settings c)).trans ht.1, (congrArg passThrough (h.settings c)).trans ht.2⟩

end

theorem KeepsSettings.refl {s : State} (h : StateOk s) : KeepsSettings s s := ⟨h, rfl, fun _ => rfl⟩

theorem KeepsSettings.trans {s t u : State} (h : KeepsSettings s t) (h' : KeepsSettings t u) : KeepsSettings s u :=
  ⟨h'.ok, h'.cfg.trans h.cfg, fun c => (h'.settings c).trans (h.settings c)⟩

/-- A well-formed variant-2 device in exact arithmetic, the standing assumption from here on. -/
abbrev ExactV2 (s : State) : Prop := StateOk s ∧ s.cfg.rounding = .exact ∧ s.cfg.variant = .v2

theorem ExactV2.ok {s : State} (h : ExactV2 s) : StateOk s := h.1

theorem ExactV2.rounding {s : State} (h : ExactV2 s) : s.cfg.rounding = .exact := h.2.1

theorem ExactV2.variant {s : State} (h : ExactV2 s) : s.cfg.variant = .v2 := h.2.2

theorem ExactV2.of_keepsSettings {s t : State} (h : ExactV2 s) (hk : KeepsSettings s t) : ExactV2 t :=
  ⟨hk.ok, hk.cfg ▸ h.rounding, hk.cfg ▸ h.variant⟩

/-! ## The local phase over one block (rule R182) -/

/-- The phase `p` advanced by one block of the increments of slot `c`. -/
def advanceBlock (s : State) (c : Slot) (p : Rat) : Rat := fracPart (p + s.cfg.blockN * (s.inst c).phinc)

theorem KeepsSettings.advanceBlock_eq {s t : State} (h : KeepsSettings s t) (c : Slot) (p : Rat) :
    advanceBlock t c p = advanceBlock s c p :=
  calc fracPart (p + t.cfg.blockN * (t.inst c).phinc)
      = fracPart (p + s.cfg.blockN * (s.inst c).phinc) := by rw [h.cfg, h.phinc_eq c]

theorem v2After_cfg (c : Slot) (n : Nat) (r : Rat) (s : State) : (v2After c n r s).cfg = s.cfg := by
  cases c <;> rfl

theorem v2After_latch (c : Slot) (n : Nat) (r : Rat) (s : State) : (v2After c n r s).latch = s.latch := by
  cases c <;> rfl

theorem v2After_input (c : Slot) (n : Nat) (r : Rat) (s : State) : (v2After c n r s).input = s.input := by
  cases c <;> rfl

theorem v2After_settings (c d : Slot) (n : Nat) (r : Rat) (s : State) :
    ((v2After c n r s).inst d).settings = (s.inst d).settings := by
  cases c <;> cases d <;> rfl

theorem v2After_keepsSettings {c : Slot} {n : Nat} {r : Rat} {s : State} (h : StateOk s)
    (hw : (s.inst c).widx.toNat < (s.inst c).cap.toNat) : KeepsSettings s (v2After c n r s) :=
  ⟨v2After_ok h hw, v2After_cfg c n r s, fun d => v2After_settings c d n r s⟩

/-- What holds after `n` samples of a block on slot `c` that began in `s` at local phase `lp`. -/
abbrev BlockInv (c : Slot) (s : State) (lp : Rat) (n : Nat) (x : State × Rat) : Prop :=
  KeepsSettings s x.1 ∧ x.1.latch = s.latch ∧ x.1.input = s.input ∧
    x.2 = fracPart (lp + n * (s.inst c).phinc)

theorem v2Sample_keeps_blockInv {c : Slot} {s : State} {lp : Rat} {n : Nat} {x : State × Rat} (h : ExactV2 s)
    (ht : TakesPart s c) (hx : BlockInv c s lp n x) :
    ∃ y, v2Sample c n x = .ok y ∧ BlockInv c s lp (n + 1) y := by
  obtain ⟨u, p⟩ := x
  obtain ⟨keeps, latch, input, rfl⟩ := hx
  obtain ⟨ok, rounding, variant⟩ := h.of_keepsSettings keeps
  obtain ⟨pe, r, lp', reads, -⟩ := v2Sample_ends (n := n) ok variant (keeps.takesPart c ht) (.inr rounding)
    (lp := fracPart (lp + n * (s.inst c).phinc)) ⟨fracPart_nonneg _, fracPart_lt_one _⟩
  refine ⟨_, v2Sample_of_reads reads, keeps.trans (v2After_keepsSettings ok reads.widx_lt),
    (v2After_latch c n r u).trans latch, (v2After_input c n r u).trans input, ?_⟩
  have advance := reads.advance
  rw [lfoAdvance_exact rounding, keeps.phinc_eq c, fracPart_add] at advance
  injection advance with advance
  rw [← advance, Nat.cast_succ, add_mul, one_mul, add_assoc]

/-- The sample loop answers, leaves the latch alone and carries the local phase one block on. -/
theorem v2Loop_advances {c : Slot} {s : State} {lp : Rat} (h : ExactV2 s) (ht : TakesPart s c) (hp : IsPhase lp) :
    ∃ t, v2Loop c false (s, lp) = .ok (t, advanceBlock s c lp) ∧ KeepsSettings s t ∧ t.latch = s.latch ∧
      t.input = s.input := by
  have start : BlockInv c s lp 0 (s, lp) :=
    ⟨.refl h.ok, rfl, rfl, by rw [Nat.cast_zero, zero_mul, add_zero, fracPart_of_phase hp]⟩
  obtain ⟨⟨t, q⟩, run, keeps, latch, input, rfl⟩ :=
    forSamples_ends (N := s.cfg.blockN) start fun _ _ _ hy => v2Sample_keeps_blockInv h ht hy
  exact ⟨t, run, keeps, latch, input⟩

/-! ## PROC2 and the latch -/

/-- `LATCH.BEGIN`, the block and `LATCH.END` in one: the latch after a `PROC2` of slot `c` that takes part. -/
def latchAfterBlock (s : State) (c : Slot) : Latch :=
  latchEnd (s.inst c).isRight true (advanceBlock s c (latchBegin s.latch).start) (latchBegin s.latch)

theorem KeepsSettings.latchAfterBlock_eq {s t : State} (h : KeepsSettings s t) (hl : t.latch = s.latch) (c : Slot) :
    latchAfterBlock t c = latchAfterBlock s c :=
  calc latchEnd (t.inst c).isRight true (advanceBlock t c (latchBegin t.latch).start) (latchBegin t.latch)
      = latchEnd (s.inst c).isRight true (advanceBlock s c (latchBegin s.latch).start) (latchBegin s.latch) := by
        rw [hl, h.isRight_eq c, h.advanceBlock_eq c]

/-- A `PROC2` that takes part is the zero fill of a missing block and then the block (rules R176, R179). -/
theorem exec_proc2_eq_v2Block {c : Slot} {s : State} (inValid : Bool) (hv : s.cfg.variant = .v2)
    (ht : TakesPart s c) :
    exec (.proc2 c inValid) s = outcomeOf (v2Block c false (substituteSilence c inValid s)) := by
  obtain ⟨inited, active⟩ := ht
  have answers : ¬ (s.inst c).inited = false := by simp [inited]
  have processes : ¬ (passThrough (s.inst c) && !s.cfg.bypassTouchesLatch) = true := by simp [active]
  calc exec (.proc2 c inValid) s
      = onVariant .v2 s (v2Block c (passThrough (s.inst c)) (substituteSilence c inValid s)) :=
        congrArg (onVariant .v2 s) ((if_neg answers).trans (if_neg processes))
    _ = outcomeOf (v2Block c false (substituteSilence c inValid s)) := by rw [onVariant_of_eq hv, active]

/-- The state in which the sample loop of `PROC2` begins (rule R176). -/
def v2Begun (c : Slot) (inValid : Bool) (s : State) : State :=
  (substituteSilence c inValid s).setLatch (latchBegin s.latch)

theorem v2Begun_keepsSettings {s : State} (c : Slot) (inValid : Bool) (h : StateOk s) :
    KeepsSettings s (v2Begun c inValid s) :=
  ⟨setLatch_ok (silence_ok c inValid h) (latchBegin_ok h.latch_ok), silence_cfg c inValid s,
    fun d => congrArg Inst.settings ((State.setLatch_inst _ _ d).trans (silence_inst c d inValid s))⟩

theorem v2Begun_input (c : Slot) (inValid : Bool) (s : State) : (v2Begun c inValid s).input = s.input := by
  rw [v2Begun, State.setLatch_input, substituteSilence_eq_setBlk, State.setBlk_input]

theorem v2Block_of_loop {c : Slot} {inValid : Bool} {s t : State} {lp : Rat}
    (h : v2Loop c false (v2Begun c inValid s, (latchBegin s.latch).start) = .ok (t, lp)) :
    v2Block c false (substituteSilence c inValid s) =
      .ok (respond true 0 (t.setLatch (latchEnd (t.inst c).isRight true lp t.latch))) := by
  rw [v2Begun] at h
  simp only [v2Block, silence_latch, h, Bool.not_false]

/-- `LATCH.END` and the response write no engine. -/
theorem respond_setLatch_keepsSettings {s : State} {l : Latch} (h : StateOk s) (hl : LatchOk l) :
    KeepsSettings s (respond true 0 (s.setLatch l)) :=
  ⟨setResp_ok _ (setLatch_ok h hl), (respond_cfg true 0 _).trans (State.setLatch_cfg s l),
    fun c => congrArg Inst.settings ((respond_inst true 0 _ c).trans (State.setLatch_inst s l c))⟩

/-- What a `PROC2` that takes part does to all but the samples (rules R176, R182, R196 to R198). -/
theorem exec_proc2_of_takesPart {c : Slot} {s : State} (inValid : Bool) (h : ExactV2 s) (ht : TakesPart s c) :
    ∃ t, exec (.proc2 c inValid) s = .next t ∧ KeepsSettings s t ∧ t.latch = latchAfterBlock s c ∧
      t.input = s.input := by
  have begun := v2Begun_keepsSettings c inValid h.ok
  have latch_begun : LatchOk (latchBegin s.latch) := latchBegin_ok h.ok.latch_ok
  obtain ⟨t, loop, keeps_loop, latch, input⟩ :=
    v2Loop_advances (h.of_keepsSettings begun) (begun.takesPart c ht) latch_begun.start_ok
  have keeps := begun.trans keeps_loop
  have latch_ended : latchEnd (t.inst c).isRight true (advanceBlock s c (latchBegin s.latch).start) t.latch =
      latchAfterBlock s c := by
    rw [latch, keeps.isRight_eq c]
    rfl
  rw [begun.advanceBlock_eq] at loop
  have latch_ok : LatchOk (latchAfterBlock s c) :=
    latchEnd_ok latch_begun (latchBegin_valid s.latch) _ _ ⟨fracPart_nonneg _, fracPart_lt_one _⟩
  have answer : exec (.proc2 c inValid) s = .next (respond true 0 (t.setLatch (latchAfterBlock s c))) := by
    rw [exec_proc2_eq_v2Block inValid h.variant ht, v2Block_of_loop loop, latch_ended, outcomeOf_ok]
  refine ⟨_, answer, keeps.trans (respond_setLatch_keepsSettings keeps.ok latch_ok), ?_, ?_⟩
  · rw [respond_latch, State.setLatch_latch]
  · rw [respond_input, State.setLatch_input, input, v2Begun_input]

/-! ## The latch over one tick (rule R200) -/

theorem latchBegin_of_idle {l : Latch} (hl : l.valid = false) :
    latchBegin l = { l with start := l.phase, valid := true, count := 0, ready := false } := by
  rcases latchBegin_cases l with ⟨open_tick, -⟩ | ⟨-, begun⟩
  · simp [hl] at open_tick
  · exact begun

/-- After the first of two engines the tick stays open, and what the primary published waits in `END`. -/
theorem latchEnd_first {l : Latch} (hl : l.valid = false) (right : Bool) (e : Rat) :
    latchEnd right true e (latchBegin l) =
      { l with
        valid := true
        start := l.phase
        endPh := if right then l.endPh else e
        ready := !right
        count := 1 } := by
  rw [latchBegin_of_idle hl]
  cases right with
  | false => rfl
  | true => rfl

/-- The second engine joins the tick, at the phase the tick began at. -/
theorem latchBegin_second {l : Latch} (hl : l.valid = false) (right : Bool) (e : Rat) :
    latchBegin (latchEnd right true e (latchBegin l)) = latchEnd right true e (latchBegin l) := by
  rw [latchEnd_first hl]
  rfl

/-- Of two ends exactly one publishes: the latch commits what the primary published, whichever came first. -/
theorem latchEnd_second {l : Latch} (hl : l.valid = false) (right : Bool) (e₁ e₂ : Rat) :
    latchEnd (!right) true e₂ (latchBegin (latchEnd right true e₁ (latchBegin l))) =
      { phase := if right then e₂ else e₁
        valid := false
        start := l.phase
        endPh := if right then e₂ else e₁
        ready := false
        count := 0 } := by
  rw [latchBegin_second hl, latchEnd_first hl]
  cases right with
  | false => rfl
  | true => rfl

/-- The latch that a normal tick of the primary `l` leaves (rule R200). -/
def latchAfterTick (s : State) (l : Slot) : Latch where
  phase := advanceBlock s l s.latch.phase
  valid := false
  start := s.latch.phase
  endPh := advanceBlock s l s.latch.phase
  ready := false
  count := 0

/-- The second `PROC2` of a tick, from any `t` that has the first one's latch and the settings of `s`. -/
theorem latchAfterBlock_second {s t : State} {l r first second : Slot} (hp : Paired s l r)
    (order : first = l ∧ second = r ∨ first = r ∧ second = l) (keeps : KeepsSettings s t)
    (ht : t.latch = latchAfterBlock s first) : latchAfterBlock t second = latchAfterTick s l := by
  have second_start : (latchBegin t.latch).start = s.latch.phase := by
    rw [ht, latchAfterBlock, latchBegin_second hp.between, latchEnd_first hp.between]
  have first_start : (latchBegin s.latch).start = s.latch.phase := by rw [latchBegin_of_idle hp.between]
  have opposite : (s.inst second).isRight = !(s.inst first).isRight := by
    rcases order with ⟨rfl, rfl⟩ | ⟨rfl, rfl⟩
    · rw [hp.primary, hp.secondary]; rfl
    · rw [hp.primary, hp.secondary]; rfl
  have published : (if (s.inst first).isRight then advanceBlock s second s.latch.phase
      else advanceBlock s first s.latch.phase) = advanceBlock s l s.latch.phase := by
    rcases order with ⟨rfl, rfl⟩ | ⟨rfl, rfl⟩
    · simp [hp.primary]
    · simp [hp.secondary]
  calc latchAfterBlock t second
      = latchEnd (!(s.inst first).isRight) true (advanceBlock s second s.latch.phase)
          (latchBegin (latchEnd (s.inst first).isRight true (advanceBlock s first s.latch.phase)
            (latchBegin s.latch))) := by
        rw [latchAfterBlock, second_start, keeps.isRight_eq, keeps.advanceBlock_eq, opposite, ht, latchAfterBlock,
          first_start]
    _ = latchAfterTick s l := by rw [latchEnd_second hp.between, published]; rfl

/-! ## Runs of the machine over the host's moves -/

theorem run_succ_eq_next_iff (M : Host.Core) (k : Nat) (s t : M.State) :
    M.run (k + 1) s = .next t ↔ ∃ u, M.step s = .next u ∧ M.run k u = .next t := by
  show (match M.step s with
    | .next u => M.run k u
    | .fault f => .fault f
    | .refused f => .refused f) = .next t ↔ _
  cases M.step s with
  | next u =>
    constructor
    · exact fun h => ⟨u, rfl, h⟩
    · rintro ⟨v, hv, h⟩
      cases hv
      exact h
  | fault f =>
    constructor
    · exact fun h => nomatch h
    · rintro ⟨v, hv, -⟩
      cases hv
  | refused f =>
    constructor
    · exact fun h => nomatch h
    · rintro ⟨v, hv, -⟩
      cases hv

theorem run_add_eq_next (M : Host.Core) {a b : Nat} {s t u : M.State} (h : M.run a s = .next t)
    (h' : M.run b t = .next u) : M.run (a + b) s = .next u := by
  induction a generalizing s with
  | zero =>
    cases h
    rw [Nat.zero_add]
    exact h'
  | succ a ih =>
    obtain ⟨s', step_s, run_s'⟩ := (run_succ_eq_next_iff M a s t).1 h
    rw [Nat.succ_add]
    exact (run_succ_eq_next_iff M (a + b) s u).2 ⟨s', step_s, ih run_s'⟩

/-- With the moves `ms` next at the port of `s`, the machine runs through them to a state that meets `Q`. -/
def RunsTo (ms : List HostMove) (s : State) (Q : State → Prop) : Prop :=
  ∀ rest, s.input = ms ++ rest →
    ∃ t : State, Host.Core.run Sys2Proof.core ms.length s = .next t ∧ t.input = rest ∧ Q t

theorem runsTo_nil {s : State} {Q : State → Prop} (h : Q s) : RunsTo [] s Q :=
  fun _ hin => ⟨s, rfl, hin, h⟩

theorem RunsTo.append {ms ns : List HostMove} {s : State} {Q R : State → Prop} (h : RunsTo ms s Q)
    (h' : ∀ t, Q t → RunsTo ns t R) : RunsTo (ms ++ ns) s R := by
  intro rest hin
  obtain ⟨t, run_t, input_t, ht⟩ := h (ns ++ rest) (hin.trans (List.append_assoc ms ns rest))
  obtain ⟨u, run_u, input_u, hu⟩ := h' t ht rest input_t
  refine ⟨u, ?_, input_u, hu⟩
  rw [List.length_append]
  exact run_add_eq_next Sys2Proof.core run_t run_u

theorem RunsTo.imp {ms : List HostMove} {s : State} {Q R : State → Prop} (h : RunsTo ms s Q)
    (hQR : ∀ t, Q t → R t) : RunsTo ms s R := by
  intro rest hin
  obtain ⟨t, run, input, ht⟩ := h rest hin
  exact ⟨t, run, input, hQR t ht⟩

/-- A single move, by what the step that takes it answers. -/
theorem runsTo_move {m : HostMove} {s : State} {Q : State → Prop}
    (h : ∀ rest, s.input = m :: rest → ∃ t, step s = .next t ∧ t.input = rest ∧ Q t) : RunsTo [m] s Q := by
  intro rest hin
  obtain ⟨t, hs, ht⟩ := h rest hin
  exact ⟨t, (run_succ_eq_next_iff Sys2Proof.core 0 s t).2 ⟨t, hs, rfl⟩, ht⟩

theorem step_of_command {s : State} {w : Word64} {rest : List HostMove} {i : Instr}
    (hin : s.input = .command w :: rest) (hd : decode s.cfg.variant w = .ok i) :
    step s = exec i { s with input := rest } := by
  simp only [step, hin, hd]

theorem step_of_putSample {s : State} {c : Slot} {n : Nat} {v : Sample} {rest : List HostMove}
    (hin : s.input = .putSample c n v :: rest) (hv : s.cfg.variant = .v2) (hn : n < s.cfg.blockN) :
    step s = .next ({ s with input := rest }.setBlkWord c n v) := by
  have exists_word : (hasBlock s.cfg.variant c && decide (n < s.cfg.blockN)) = true := by
    rw [hv, decide_eq_true hn]
    cases c with
    | s0 => rfl
    | s1 => rfl
  obtain ⟨cfg, inst0, inst1, v1, latch, dly0, dly1, blk0, blk1, input, resp⟩ := s
  cases hin
  exact congrArg outcomeOf (if_pos exists_word)

/-! ## The moves of a tick -/

theorem setBlkWord_ok {s : State} (c : Slot) (n : Nat) (v : Sample) (h : StateOk s) :
    StateOk (s.setBlkWord c n v) := by
  cases c with
  | s0 => exact { h with blk0_wf := Memory.writeWord_wf _ _ h.blk0_wf }
  | s1 => exact { h with blk1_wf := Memory.writeWord_wf _ _ h.blk1_wf }

theorem withInput_keepsSettings {s : State} (ms : List HostMove) (h : StateOk s) :
    KeepsSettings s { s with input := ms } := by
  refine ⟨{ h with }, rfl, fun c => ?_⟩
  cases c with
  | s0 => rfl
  | s1 => rfl

/-- The move that places a sample. -/
def Placement.move (p : Placement) : HostMove := .putSample p.1 p.2.1 p.2.2

theorem runsTo_placements {s : State} {ps : List Placement} (h : ExactV2 s)
    (fits : ∀ p ∈ ps, p.2.1 < s.cfg.blockN) :
    RunsTo (ps.map Placement.move) s fun t => KeepsSettings s t ∧ t.latch = s.latch := by
  induction ps generalizing s with
  | nil => exact runsTo_nil ⟨.refl h.ok, rfl⟩
  | cons p ps ih =>
    obtain ⟨fits_p, fits_ps⟩ := List.forall_mem_cons.1 fits
    have head : RunsTo [p.move] s fun t => KeepsSettings s t ∧ t.latch = s.latch := by
      refine runsTo_move fun rest hin => ⟨_, step_of_putSample hin h.variant fits_p, by simp, ?_, by simp⟩
      have popped := withInput_keepsSettings rest h.ok
      exact popped.trans ⟨setBlkWord_ok _ _ _ popped.ok, by simp, fun c => by simp⟩
    refine head.append (ns := ps.map Placement.move) ?_
    rintro t ⟨keeps, latch⟩
    refine (ih (h.of_keepsSettings keeps) (keeps.cfg ▸ fits_ps)).imp ?_
    rintro u ⟨keeps', latch'⟩
    exact ⟨keeps.trans keeps', latch'.trans latch⟩

theorem decode_encode_proc2 (c : Slot) (inValid : Bool) :
    decode .v2 (encode (.proc2 c inValid)) = .ok (.proc2 c inValid) := by
  cases c <;> cases inValid <;> rfl

theorem runsTo_proc2 {s : State} {c : Slot} (inValid : Bool) (h : ExactV2 s) (ht : TakesPart s c) :
    RunsTo [HostMove.command (encode (.proc2 c inValid))] s fun t =>
      KeepsSettings s t ∧ t.latch = latchAfterBlock s c := by
  refine runsTo_move fun rest hin => ?_
  have popped := withInput_keepsSettings rest h.ok
  obtain ⟨t, answer, keeps, latch, input⟩ :=
    exec_proc2_of_takesPart inValid (h.of_keepsSettings popped) (popped.takesPart c ht)
  refine ⟨t, ?_, input, popped.trans keeps, latch.trans (popped.latchAfterBlock_eq rfl c)⟩
  rw [step_of_command hin (h.variant ▸ decode_encode_proc2 c inValid), answer]

/-- One engine's half of a tick: the samples placed before its `PROC2`, and the `PROC2`. -/
theorem runsTo_half {s : State} {c : Slot} {ps : List Placement} (inValid : Bool) (h : ExactV2 s)
    (ht : TakesPart s c) (fits : ∀ p ∈ ps, p.2.1 < s.cfg.blockN) :
    RunsTo (ps.map Placement.move ++ [HostMove.command (encode (.proc2 c inValid))]) s fun t =>
      KeepsSettings s t ∧ t.latch = latchAfterBlock s c := by
  refine (runsTo_placements h fits).append ?_
  rintro t ⟨keeps, latch⟩
  refine (runsTo_proc2 inValid (h.of_keepsSettings keeps) (keeps.takesPart c ht)).imp ?_
  rintro u ⟨keeps', latch'⟩
  exact ⟨keeps.trans keeps', latch'.trans (keeps.latchAfterBlock_eq latch c)⟩

/-! ## A tick and many ticks (rules R200, R201) -/

/-- The slot whose `PROC2` comes first (rule R102). -/
def Tick.first (k : Tick) : Slot := if k.reversed then .s1 else .s0

/-- The slot whose `PROC2` comes second. -/
def Tick.second (k : Tick) : Slot := if k.reversed then .s0 else .s1

/-- `IN_VALID` of the command to slot `c`. -/
def Tick.inValid (k : Tick) : Slot → Bool
  | .s0 => k.in0
  | .s1 => k.in1

theorem slot0Word_eq (inValid : Bool) : slot0Word inValid = encode (.proc2 .s0 inValid) := by
  cases inValid <;> rfl

theorem slot1Word_eq (inValid : Bool) : slot1Word inValid = encode (.proc2 .s1 inValid) := by
  cases inValid <;> rfl

/-- The moves of a tick are those of its two halves. -/
theorem Tick.moves_eq (k : Tick) :
    k.moves = (k.before.map Placement.move ++ [HostMove.command (encode (.proc2 k.first (k.inValid k.first)))]) ++
      (k.between.map Placement.move ++ [HostMove.command (encode (.proc2 k.second (k.inValid k.second)))]) := by
  obtain ⟨reversed, in0, in1, before, between⟩ := k
  rw [List.append_assoc, List.singleton_append]
  cases reversed with
  | false =>
    show _ ++ HostMove.command (slot0Word in0) :: (_ ++ [HostMove.command (slot1Word in1)]) = _
    rw [slot0Word_eq, slot1Word_eq]
    rfl
  | true =>
    show _ ++ HostMove.command (slot1Word in1) :: (_ ++ [HostMove.command (slot0Word in0)]) = _
    rw [slot0Word_eq, slot1Word_eq]
    rfl

/-- Either order of the commands is one of the two orders of primary and right channel. -/
theorem Tick.order {l r : Slot} (k : Tick) (h : l ≠ r) :
    k.first = l ∧ k.second = r ∨ k.first = r ∧ k.second = l := by
  unfold Tick.first Tick.second
  cases k.reversed <;> cases l <;> cases r <;> simp at h ⊢

theorem runsTo_tick {s : State} {l r : Slot} {k : Tick} (h : ExactV2 s) (hp : Paired s l r)
    (fits : k.Fits s.cfg.blockN) :
    RunsTo k.moves s fun t => KeepsSettings s t ∧ t.latch = latchAfterTick s l := by
  obtain ⟨fits_before, fits_between⟩ := List.forall_mem_append.1 fits
  have order := k.order hp.distinct
  have part : TakesPart s k.first ∧ TakesPart s k.second := by
    rcases order with ⟨first, second⟩ | ⟨first, second⟩
    · exact ⟨first ▸ hp.left, second ▸ hp.right⟩
    · exact ⟨first ▸ hp.right, second ▸ hp.left⟩
  obtain ⟨part_first, part_second⟩ := part
  rw [Tick.moves_eq]
  refine (runsTo_half _ h part_first fits_before).append ?_
  rintro t ⟨keeps, latch⟩
  refine (runsTo_half _ (h.of_keepsSettings keeps) (keeps.takesPart k.second part_second)
    (keeps.cfg ▸ fits_between)).imp ?_
  rintro u ⟨keeps', latch'⟩
  exact ⟨keeps.trans keeps', latch'.trans (latchAfterBlock_second hp order keeps latch)⟩

theorem Paired.of_keepsSettings {s t : State} {l r : Slot} (h : Paired s l r) (keeps : KeepsSettings s t)
    (between : t.latch.valid = false) : Paired t l r :=
  ⟨h.distinct, keeps.takesPart l h.left, keeps.takesPart r h.right, (keeps.isRight_eq l).trans h.primary,
    (keeps.isRight_eq r).trans h.secondary, between⟩

theorem runsTo_ticks {s : State} {l r : Slot} {ticks : List Tick} (h : ExactV2 s) (hp : Paired s l r)
    (fits : ∀ k ∈ ticks, k.Fits s.cfg.blockN) :
    RunsTo (ticks.flatMap Tick.moves) s fun t => t.latch.valid = false ∧
      t.latch.phase = fracPart (s.latch.phase + ticks.length * (s.cfg.blockN * (s.inst l).phinc)) := by
  induction ticks generalizing s with
  | nil =>
    refine runsTo_nil ⟨hp.between, ?_⟩
    rw [List.length_nil, Nat.cast_zero, zero_mul, add_zero, fracPart_of_phase h.ok.latch_ok.phase_ok]
  | cons k ks ih =>
    obtain ⟨fits_k, fits_ks⟩ := List.forall_mem_cons.1 fits
    rw [List.flatMap_cons]
    refine (runsTo_tick h hp fits_k).append ?_
    rintro t ⟨keeps, latch⟩
    have between : t.latch.valid = false := congrArg Latch.valid latch
    have phase : t.latch.phase = fracPart (s.latch.phase + s.cfg.blockN * (s.inst l).phinc) :=
      congrArg Latch.phase latch
    refine (ih (h.of_keepsSettings keeps) (hp.of_keepsSettings keeps between) (keeps.cfg ▸ fits_ks)).imp ?_
    rintro u ⟨valid, total⟩
    refine ⟨valid, ?_⟩
    rw [total, phase, fracPart_add, keeps.cfg, keeps.phinc_eq l, List.length_cons, Nat.cast_succ, add_mul,
      one_mul, add_comm (_ * _) (_ * _), ← add_assoc]

/-- Settles O43: a tick leaves the pairing as it was and the shared phase one block of the primary on, and so
by induction on the ticks. -/
theorem phaseConservation : Obligations.PhaseConservation := by
  intro s l r ticks ok rounding variant hp fits hin
  obtain ⟨u, run, input, valid, phase⟩ :=
    runsTo_ticks ⟨ok, rounding, variant⟩ hp fits [] (by rw [List.append_nil, hin])
  exact ⟨u, hin ▸ run, input, valid, phase⟩

end Sys2Proof.Machine

/-! # Proofs: the idle device (`70_reset_and_hazards.md`) -/

namespace Sys2Proof.Machine

/-! ## Reset leaves no move and no response -/

@[simp] theorem State.resetWith_input (c : Config) (d0 d1 b0 b1 : Memory) :
    (State.resetWith c d0 d1 b0 b1).input = [] := rfl

@[simp] theorem State.resetWith_resp (c : Config) (d0 d1 b0 b1 : Memory) :
    (State.resetWith c d0 d1 b0 b1).resp = none := rfl

/-! ## The step without a move -/

/-- The third case of `step`, beside `step_of_command` and `step_of_putSample`. -/
theorem step_of_no_move {s : State} (hin : s.input = []) : step s = .next s := by
  simp only [step, hin]

/-! ## The obligation -/

/-- Settles O9: the state after reset is one of those without a move, whatever the configuration and the
memory. -/
theorem idleAfterReset : Obligations.IdleAfterReset := by
  refine ⟨fun s => step_of_no_move, fun c d0 d1 b0 b1 => ?_⟩
  have no_move := State.resetWith_input c d0 d1 b0 b1
  exact ⟨no_move, step_of_no_move no_move, State.resetWith_resp c d0 d1 b0 b1⟩

end Sys2Proof.Machine


/-! # Proofs: what the samples of `PROC1` and `PROC2` write (`43_engine_v1.md`, `44_engine_v2.md`) -/

namespace Sys2Proof.Machine

set_option deprecated.oldSectionVars true

/-! ## What PROC2 writes (rule R180) -/

/-- `s` with what `PROC2` of slot `c` writes taken from `t`. -/
def v2Written (c : Slot) (s t : State) : State :=
  (((s.setInst c { s.inst c with
      widx := (t.inst c).widx
      preY := (t.inst c).preY
      postY := (t.inst c).postY }).setLatch t.latch).setDly c (t.dly c)).setBlk c (t.blk c)

/-- From `s` to `t` nothing has changed but what `PROC2` of slot `c` writes. -/
def V2Writes (c : Slot) (s t : State) : Prop := t = v2Written c s t

theorem v2Written_v2Written (c : Slot) (s t u : State) : v2Written c (v2Written c s t) u = v2Written c s u := by
  cases c <;> rfl

theorem V2Writes.refl (c : Slot) (s : State) : V2Writes c s s := by
  cases c <;> rfl

theorem V2Writes.trans {c : Slot} {s t u : State} (h : V2Writes c s t) (h' : V2Writes c t u) : V2Writes c s u :=
  calc u = v2Written c t u := h'
    _ = v2Written c (v2Written c s t) u := congrArg (v2Written c · u) h
    _ = v2Written c s u := v2Written_v2Written c s t u

theorem v2After_writes (c : Slot) (n : Nat) (r : Rat) (s : State) : V2Writes c s (v2After c n r s) := by
  cases c <;> rfl

theorem setLatch_writes (c : Slot) (l : Latch) (s : State) : V2Writes c s (s.setLatch l) := by
  cases c <;> rfl

theorem silence_v2Writes (c : Slot) (inValid : Bool) (s : State) : V2Writes c s (substituteSilence c inValid s) := by
  cases c <;> cases inValid <;> rfl

theorem v2Loop_writes {c : Slot} {pass : Bool} {x y : State × Rat} (h : v2Loop c pass x = .ok y) :
    V2Writes c x.1 y.1 ∧ y.1.latch = x.1.latch := by
  cases pass with
  | true =>
    cases h
    exact ⟨.refl c _, rfl⟩
  | false =>
    refine forSamples_invariant (P := fun _ (z : State × Rat) => V2Writes c x.1 z.1 ∧ z.1.latch = x.1.latch)
      ⟨.refl c _, rfl⟩ (fun n y z _ hy hz => ?_) h
    obtain ⟨writes, latch⟩ := hy
    obtain ⟨u, lp⟩ := y
    obtain ⟨v, lp'⟩ := z
    obtain ⟨pe, r, -, rfl⟩ := v2Sample_ok hz
    exact ⟨writes.trans (v2After_writes c n r u), (v2After_latch c n r u).trans latch⟩

/-! ## What PROC1 writes (rule R157) -/

/-- `s` with what the samples of `PROC1` write taken from `t`. -/
def v1Written (s t : State) : State :=
  { s with
    inst0 := { s.inst0 with widx := t.inst0.widx }
    v1 := { s.v1 with phL := t.v1.phL, phR := t.v1.phR }
    dly0 := t.dly0
    blk0 := t.blk0 }

/-- From `s` to `t` nothing has changed but what the samples of `PROC1` write. -/
def V1Writes (s t : State) : Prop := t = v1Written s t

theorem V1Writes.refl (s : State) : V1Writes s s := rfl

theorem V1Writes.trans {s t u : State} (h : V1Writes s t) (h' : V1Writes t u) : V1Writes s u :=
  calc u = v1Written t u := h'
    _ = v1Written (v1Written s t) u := congrArg (v1Written · u) h
    _ = v1Written s u := rfl

theorem v1After_writes (n : Nat) (rl rr pl pr : Rat) (s : State) : V1Writes s (v1After n rl rr pl pr s) := rfl

theorem v1Loop_writes {k : Nat} {s t : State} (h : forSamples v1Sample k s = .ok t) : V1Writes s t := by
  refine forSamples_invariant (P := fun _ => V1Writes s) (V1Writes.refl s) (fun n y z _ hy hz => ?_) h
  obtain ⟨rl, rr, pl, pr, -, rfl⟩ := v1Sample_ok hz
  exact hy.trans (v1After_writes ..)

theorem silence_v1Writes (inValid : Bool) (s : State) : V1Writes s (substituteSilence .s0 inValid s) := by
  cases inValid <;> rfl

end Sys2Proof.Machine


/-! # Proofs: the delay line, the LFO, the filters and the mix (`40_delay_line.md` to `42_filter_sat_mix.md`) -/

namespace Sys2Proof.Machine

set_option deprecated.oldSectionVars true

/-! ## LFO.WRAP and LFO.ADVANCE (rules R121, R122, R124) -/

theorem fracPart_isPhase (x : Rat) : IsPhase (fracPart x) := ⟨fracPart_nonneg x, fracPart_lt_one x⟩

/-- Settles O48: in exact arithmetic `LFO.WRAP` is the fractional part, which differs by the floor. -/
theorem wrapIsCanonical : Obligations.WrapIsCanonical := by
  intro c p hx
  refine ⟨fracPart p, -⌊p⌋, lfoWrap_exact hx p, fracPart_isPhase p, ?_⟩
  rw [fracPart, rat_floor_eq, Int.cast_neg, sub_eq_add_neg]

/-- `k` advances of a canonical phase are one advance by `k` increments. -/
theorem advances_exact {c : Config} (hx : c.rounding = .exact) {p : Rat} (hp : IsPhase p) (inc : Rat) (k : Nat) :
    forSamples (fun _ q => lfoAdvance c q inc) k p = .ok (fracPart (p + k * inc)) := by
  induction k with
  | zero => rw [Nat.cast_zero, zero_mul, add_zero, fracPart_of_phase hp]; rfl
  | succ k ih =>
    rw [forSamples_succ, ih]
    show lfoAdvance c (fracPart (p + k * inc)) inc = _
    rw [lfoAdvance_exact hx, fracPart_add, Nat.cast_succ, add_mul, one_mul, add_assoc]

/-- Settles O49: increments that sum to one cycle leave the fractional part. -/
theorem fullPeriodIsIdentity : Obligations.FullPeriodIsIdentity := by
  intro c p inc k hx hp hk
  rw [advances_exact hx hp, hk, fracPart_eq, Int.fract_add_one, ← fracPart_eq, fracPart_of_phase hp]

/-! ## The triangles (rules R125, R126, R131, R133) -/

theorem tri01_exact {c : Config} (hx : c.rounding = .exact) (p : Rat) : tri01 c p = triangle01Exact p := by
  simp only [tri01, triangle01Exact, rsub_exact hx, rmul_exact hx]

theorem triangle01Exact_of_lt {p : Rat} (h : p < 1 / 2) : triangle01Exact p = 2 * p := if_pos h

theorem triangle01Exact_of_ge {p : Rat} (h : 1 / 2 ≤ p) : triangle01Exact p = 2 - 2 * p := if_neg (not_lt.2 h)

theorem triangle01Exact_mem {p : Rat} (hp : IsPhase p) : 0 ≤ triangle01Exact p ∧ triangle01Exact p ≤ 1 := by
  obtain ⟨h0, h1⟩ := hp
  unfold triangle01Exact
  split_ifs <;> constructor <;> linarith

theorem triangleExact_eq (p : Rat) : triangleExact p = 2 * triangle01Exact p - 1 := by
  unfold triangleExact triangle01Exact
  split_ifs <;> ring

/-- Half a cycle on from a phase below 1/2, and from one that is not. -/
theorem fracPart_add_half {p : Rat} (hp : IsPhase p) :
    fracPart (p + 1 / 2) = if p < 1 / 2 then p + 1 / 2 else p - 1 / 2 := by
  obtain ⟨h0, h1⟩ := hp
  split_ifs with h
  · exact fracPart_of_phase ⟨by linarith, by linarith⟩
  · rw [show p + 1 / 2 = p - 1 / 2 + 1 by ring, fracPart_eq, Int.fract_add_one, ← fracPart_eq]
    exact fracPart_of_phase ⟨by linarith, by linarith⟩

/-- A triangle meets itself half a cycle later at 1/4 and 3/4 only (rule R133). -/
theorem triangle01Exact_meets_iff {p : Rat} (hp : IsPhase p) :
    triangle01Exact p = triangle01Exact (fracPart (p + 1 / 2)) ↔ p = 1 / 4 ∨ p = 3 / 4 := by
  obtain ⟨h0, h1⟩ := hp
  rw [fracPart_add_half ⟨h0, h1⟩]
  by_cases h : p < 1 / 2
  · rw [if_pos h, triangle01Exact_of_lt h, triangle01Exact_of_ge (by linarith)]
    constructor
    · intro e
      exact .inl (by linarith)
    · rintro (rfl | rfl)
      · norm_num
      · norm_num at h
  · rw [if_neg h, triangle01Exact_of_ge (not_lt.1 h), triangle01Exact_of_lt (by linarith)]
    constructor
    · intro e
      exact .inr (by linarith)
    · rintro (rfl | rfl)
      · norm_num at h
      · norm_num

/-- Settles O50: each clause on the closed forms of the two triangles. -/
theorem triangleWaveforms : Obligations.TriangleWaveforms := by
  intro c p hx hp
  rw [tri01_exact hx, tri01_exact hx, tri_exact hx]
  obtain ⟨h0, h1⟩ := triangle01Exact_mem hp
  exact ⟨triangle01Exact_of_lt, triangle01Exact_of_ge, h0, h1, triangleExact_eq p, triangle01Exact_meets_iff hp⟩


end Sys2Proof.Machine

/- # Proofs: what every command can answer -/

namespace Sys2Proof.Machine

/- ## The settings a command writes keep an engine well-formed (rules R28, R34, R51) -/

/-- What a command other than `INIT` and `PROC` may make of an engine's registers. -/
def Retuned (c : Config) (i j : Inst) : Prop :=
  ConfigAdmissible c → j.preY = i.preY ∧ j.postY = i.postY ∧ (InstOk c i → InstOk c j)

-- The check compiles the whole text in one process; one declaration after another keeps it within its memory.
set_option Elab.async false in
theorem rate_range1 : v1RateMin ≤ v1RateMax := by with_unfolding_all decide

theorem minLen_of_v1 {c : Config} (hv : c.variant = .v1) : minLen c = v1MinLen := by
  delta minLen
  rw [hv]

theorem retuned_rate {c : Config} {lo hi : Rat} (hlo : rateMin c = lo) (hhi : rateMax c = hi)
    (hle : ConfigAdmissible c → lo ≤ hi) (i : Inst) (x : Rat) :
    Retuned c i { i with rate := clampReal x lo hi, phinc := phaseIncrement c (clampReal x lo hi) } := fun hc =>
  ⟨rfl, rfl, fun h => { h with
    phinc_eq := rfl
    rate_ge := hlo.trans_le (clampReal_ge (hle hc))
    rate_le := (clampReal_le (hle hc)).trans_eq hhi.symm }⟩

theorem retuned_row {c : Config} {m : Mode} {r : ModeRow} (hv : c.variant = .v2) (hm : modeRow c m = some r) (i : Inst) :
    Retuned c i (withMode c m i) := fun hc =>
  have ok := modeRow_ok hc hm
  (withMode_of_row hm ok i).symm.subst (motive := fun j => j.preY = i.preY ∧ j.postY = i.postY ∧ (InstOk c i → InstOk c j))
  ⟨rfl, rfl, fun h => { h with
    phinc_eq := rfl
    rate_ge := by delta rateMin; rw [hv]; exact ok.rate_ge
    rate_le := by delta rateMax; rw [hv]; exact ok.rate_le
    depth_ge := ok.depth_ge
    depth_le := ok.depth_le
    range_eq := fun _r hr => Option.some.inj (hm.symm.trans hr) ▸ ⟨rfl, rfl⟩ }⟩

/-- The mode's row takes rate, depth and delay range along with the mode (rule R186). -/
theorem retuned_mode {c : Config} (hv : c.variant = .v2) (m : Mode) (i : Inst) : Retuned c i (withMode c m i) := by
  induction m with
  | off => exact fun _h => ⟨rfl, rfl, fun h => { h with range_eq := fun _r hr => (Option.some_ne_none _ hr.symm).elim }⟩
  | _ => exact retuned_row hv rfl i

theorem retuned_depth (c : Config) (i : Inst) (x : Rat) : Retuned c i { i with depth := clamp01 x } := fun _h =>
  ⟨rfl, rfl, fun h => { h with depth_ge := clamp01_ge x, depth_le := clamp01_le x }⟩

theorem retuned_bypass (c : Config) (i : Inst) (b : Bool) : Retuned c i { i with bypass := b } := fun _h =>
  ⟨rfl, rfl, fun h => { h with }⟩

/- ## The answers, by what they write -/

/-- A command of variant `v` answers ILLEGAL on the other, and on `v` what its effect is. -/
theorem onVariant_next_cases {P : State → Prop} {v : Variant} {s t : State} {e : Except Fault State}
    (h : onVariant v s e = .next t) (fail : P (raiseStatus .illegal s)) (ok : s.cfg.variant = v → e = .ok t → P t) :
    P t := by
  exact (onVariant_next h).elim (fun e => ok e.1 e.2) fun e => e.2.symm.subst (motive := P) fail

theorem onVariant_ok_cases {P : State → Prop} {v : Variant} {s t u : State} (h : onVariant v s (.ok u) = .next t)
    (fail : P (raiseStatus .illegal s)) (ok : s.cfg.variant = v → P u) : P t :=
  onVariant_next_cases h fail fun hv e => (Except.ok.inj e).subst (motive := P) (ok hv)

/-- A conditional effect that answers does so by one of its branches. -/
theorem ite_ok_cases {P : State → Prop} {p : Prop} [dec : Decidable p] {t u : State} {e : Except Fault State}
    (h : (if p then .ok u else e) = .ok t) (yes : P u) (no : ¬ p → e = .ok t → P t) : P t := by
  by_cases hp : p
  · exact (Except.ok.inj ((if_pos hp).symm.trans h)).subst (motive := P) yes
  · exact no hp ((if_neg hp).symm.trans h)

/-- A command that fails under a condition, and otherwise does what its effect is. -/
theorem onVariant_guard_cases {P : State → Prop} {v : Variant} {s t u : State} {p : Prop} [dec : Decidable p]
    {e : Except Fault State} (h : onVariant v s (if p then .ok u else e) = .next t) (fail : P (raiseStatus .illegal s))
    (yes : P u) (no : s.cfg.variant = v → ¬ p → e = .ok t → P t) : P t :=
  onVariant_next_cases h fail fun hv e => ite_ok_cases e yes (no hv)

theorem v1Loop_cases {P : State → Prop} {x : Except Fault State} {f : State → State} {t : State}
    (h : (match x with | .ok u => .ok (f u) | .error e => .error e) = Except.ok (ε := Fault) t)
    (k : ∀ u, x = .ok u → P (f u)) : P t := by
  induction x with
  | ok u => exact (Except.ok.inj h).subst (motive := P) (k u rfl)
  | error e => exact (Bool.false_ne_true (congrArg Except.toBool h)).elim

theorem v2Loop_cases {P : State → Prop} {x : Except Fault (State × Rat)} {f : State → Rat → State} {t : State}
    (h : (match x with | .ok (u, lp) => .ok (f u lp) | .error e => .error e) = Except.ok (ε := Fault) t)
    (k : ∀ u lp, x = .ok (u, lp) → P (f u lp)) : P t := by
  induction x with
  | ok y => exact (Except.ok.inj h).subst (motive := P) (k y.1 y.2 rfl)
  | error e => exact (Bool.false_ne_true (congrArg Except.toBool h)).elim

/-- The registers and spaces after `INIT1` (rule R152). -/
noncomputable def v1Inited (len : BitVec 24) (s : State) : State :=
  { s with
    inst0 := { s.inst0 with inited := true, cap := len, widx := 0 }
    v1 := { s.v1 with base := s.cfg.v1BaseDelay, phL := 0, phR := 1 / 4 }
    dly0 := Memory.zeroWords s.dly0 len.toNat
    dly1 := Memory.zeroWords s.dly1 len.toNat }

/-- The registers and the space of slot `c` after `INIT2` (rule R172). -/
noncomputable def v2Inited (c : Slot) (len : BitVec 24) (right : Bool) (s : State) : State :=
  (s.setInst c
    { s.inst c with inited := true, cap := len, widx := 0, isRight := right, preY := 0, postY := 0 }).setDly c
    (Memory.zeroWords (s.dly c) len.toNat)

/-- The mix and its weights after `SETMIX` (rules R144, R164). -/
noncomputable def mixSet (m : Rat) (s : State) : State :=
  s.setV1 { s.v1 with
    mix := m
    wet256 := BitVec.ofInt 9 (wetWeight s.cfg m)
    dry256 := BitVec.ofInt 9 (256 - wetWeight s.cfg m) }

/-- Everything a command can answer, by what it writes. -/
theorem exec_next_cases {P : State → Prop} {i : Instr} {s t : State} (h : exec i s = .next t)
    (fail : ∀ st, P (raiseStatus st s))
    (query : ∀ v, P (respond true v s))
    (set : ∀ c j, Retuned s.cfg (s.inst c) j → P (respond true 0 (s.setInst c j)))
    (mix : ∀ x, P (respond true 0 (mixSet (clamp01 x) s)))
    (sync : ∀ p, P (respond true 0 (s.setLatch { s.latch with phase := uq32 p })))
    (init1 : ∀ len, s.cfg.variant = .v1 → v1MinLen ≤ len.toNat → P (respond true 0 (v1Inited len s)))
    (init2 : ∀ c len right, s.cfg.variant = .v2 → v2MinLen ≤ len.toNat → P (respond true 0 (v2Inited c len right s)))
    (silence : ∀ c inV, P (respond true 0 (substituteSilence c inV s)))
    (proc1 : ∀ inV u, s.cfg.variant = .v1 → s.inst0.inited = true →
      forSamples v1Sample s.cfg.blockN (substituteSilence .s0 inV s) = .ok u → P (respond true 0 u))
    (proc2 : ∀ c inV u lp, s.cfg.variant = .v2 →
      v2Loop c (passThrough (s.inst c)) (v2Begun c inV s, (latchBegin s.latch).start) = .ok (u, lp) →
      P (respond true 0 (u.setLatch (latchEnd (u.inst c).isRight (!passThrough (s.inst c)) lp u.latch)))) : P t := by
  have illegal := fail .illegal
  induction i with
  | init1 len p0 p1 =>
    exact onVariant_guard_cases (e := .ok (respond true 0 (v1Inited len s))) h illegal (fail _) fun hv ok e =>
      (Except.ok.inj e).subst (motive := P) (init1 len hv (not_lt.1 fun lt => ok ((init1Refuses_iff ..).2 (.inr (.inr lt)))))
  | init2 ch len p0 right =>
    exact onVariant_guard_cases (e := .ok (respond true 0 (v2Inited ch len right s))) h illegal (fail _) fun hv ok e =>
      (Except.ok.inj e).subst (motive := P) (init2 ch len right hv (not_lt.1 fun lt => ok ((init2Refuses_iff ..).2 (.inr lt))))
  | proc1 inV =>
    exact onVariant_guard_cases h illegal (fail _) fun hv inited e =>
      ite_ok_cases e (silence _ inV) fun _h e => v1Loop_cases e fun u => proc1 inV u hv (Bool.eq_true_of_not_eq_false inited)
  | proc2 ch inV =>
    exact onVariant_guard_cases h illegal (fail _) fun hv _h e =>
      ite_ok_cases e (silence _ inV) fun _h e => v2Loop_cases e fun u lp run => proc2 ch inV u lp hv (by rwa [silence_latch] at run)
  | setrate1 q =>
    exact onVariant_ok_cases h illegal fun hv => set .s0 _
      (retuned_rate (by delta rateMin; rw [hv]) (by delta rateMax; rw [hv]) (fun _h => rate_range1) _ _)
  | setrate2 ch q =>
    exact onVariant_ok_cases h illegal fun hv => set ch _
      (retuned_rate (by delta rateMin; rw [hv]) (by delta rateMax; rw [hv]) ConfigAdmissible.rate_le _ _)
  | setdepth1 q => exact onVariant_ok_cases h illegal fun _h => set .s0 _ (retuned_depth _ _ _)
  | setdepth2 ch q => exact onVariant_ok_cases h illegal fun _h => set ch _ (retuned_depth _ _ _)
  | setmix q => exact onVariant_ok_cases h illegal fun _h => mix _
  | setmode ch m => exact onVariant_ok_cases h illegal fun hv => set ch _ (retuned_mode hv _ _)
  | setbyp1 b => exact onVariant_ok_cases h illegal fun _h => set .s0 _ (retuned_bypass _ _ _)
  | setbyp2 ch b => exact onVariant_ok_cases h illegal fun _h => set ch _ (retuned_bypass _ _ _)
  | getlen1 => exact onVariant_ok_cases h illegal fun _h => query _
  | getlen2 ch => exact onVariant_ok_cases h illegal fun _h => query _
  | syncph p => exact onVariant_ok_cases h illegal fun _h => sync p
  | getph => exact onVariant_ok_cases h illegal fun _h => query _

end Sys2Proof.Machine

namespace Sys2Proof.Machine

/- ## The response word (rules R96, R220) -/

theorem exec_response_cases {P : State → Prop} {i : Instr} {s t : State} (h : exec i s = .next t)
    (raise : ∀ st, P (raiseStatus st s)) (ok : ∀ v u, P (respond true v u)) : P t :=
  exec_next_cases h raise (fun _x => ok ..) (fun _c _j _h => ok ..) (fun _x => ok ..) (fun _x => ok ..)
    (fun _x _h _h => ok ..) (fun _c _x _r _h _h => ok ..) (fun _c _x => ok ..) (fun _x _u _h _h _h => ok ..)
    (fun _c _x _u _p _h _h => ok ..)

theorem status_of_ok (v : BitVec 32) : (responseWord .ok true v).extractLsb' 62 2 = 0 :=
  BitVec.extractLsb'_append_eq_of_le (by decide)

/-- Bits 61:33 stand between the status and the flag. -/
theorem reserved_of_response (st : Status) (flag : Bool) (v : BitVec 32) :
    (responseWord st flag v).extractLsb' 33 29 = 0 :=
  (BitVec.extractLsb'_append_eq_of_le (by decide)).trans
    ((BitVec.extractLsb'_append_eq_of_le le_rfl).trans BitVec.extractLsb'_append_eq_right)

/-- Settles O12: every answer is a `raise` or a `respond`. -/
theorem everyCommandReturnsAResponse : Obligations.EveryCommandReturnsAResponse := by
  intro i s t h
  refine exec_response_cases (P := fun t => ∃ w : Word64, t.resp = some w ∧ w.extractLsb' 33 29 = 0 ∧
    (w.extractLsb' 62 2 ≠ 0 → w.extractLsb' 0 33 = 0)) h (fun st => ?_) fun v u => ?_
  · exact ⟨_, rfl, reserved_of_response .., fun _ => by induction st <;> rfl⟩
  · exact ⟨_, rfl, reserved_of_response .., (absurd (status_of_ok v) ·)⟩

/-- Settles O13: an answer with a nonzero status is a `raise`, which writes the response alone. -/
theorem failedCommandWritesNothing : Obligations.FailedCommandWritesNothing := by
  intro i s t w h
  exact exec_response_cases (P := fun t => t.resp = some w → w.extractLsb' 62 2 ≠ 0 → t = { s with resp := some w }) h
    (fun st hw _h => hw.subst (motive := fun r => raiseStatus st s = { s with resp := r }) rfl) fun v u hw status => absurd ((Option.some.inj hw).subst (motive := fun w => w.extractLsb' 62 2 = 0) (status_of_ok v)) status

/- ## The configuration (rule R22) -/

/-- Settles O6: the step matches on the move and on the decoded word, and adds nothing. -/
theorem stepRunsDecodedCommand : Obligations.StepRunsDecodedCommand := fun _s _w _r _i => step_of_command

theorem step_of_input {s : State} {ms : List HostMove} (h : s.input = ms) : step s = step { s with input := ms } :=
  congrArg (fun ms => step { s with input := ms }) h

theorem step_of_undecoded {s : State} {w : Word64} {rest : List HostMove} {e : DecodeError}
    (hin : s.input = .command w :: rest) (hd : decode s.cfg.variant w = .error e) :
    step s = .next { s with input := rest, resp := some illegalWord } := by
  exact (step_of_input hin).trans (congrArg (fun d : Except DecodeError Instr => match d with
    | .ok i => exec i { s with input := rest }
    | .error _e => .next (raiseStatus .illegal { s with input := rest })) hd)

/-- Settles O7: the step's other case of a command word. -/
theorem illegalWordChangesNothing : Obligations.IllegalWordChangesNothing := by
  intro s w rest hin hd
  generalize hr : decode s.cfg.variant w = d
  induction d with
  | ok i => exact absurd hr (hd i)
  | error e => exact step_of_undecoded hin hr

/-- Everything a step can answer. -/
theorem step_next_cases {P : State → Prop} {s t : State} (h : step s = .next t) (idle : P s)
    (put : ∀ c n v rest, P ({ s with input := rest }.setBlkWord c n v))
    (illegal : ∀ rest, P { s with input := rest, resp := some illegalWord })
    (run : ∀ i rest, exec i { s with input := rest } = .next t → P t) : P t := by
  generalize hin : s.input = ms
  induction ms with
  | nil => exact (Host.Outcome.next.inj ((step_of_no_move hin).symm.trans h)).subst (motive := P) idle
  | cons m rest _ih =>
    induction m with
    | putSample c n v =>
      exact onVariant_guard_cases (s := { s with input := rest }) ((onVariant_of_eq rfl).trans ((step_of_input hin).symm.trans h :))
        (illegal rest) (put c n v rest) fun _h _h e => (Bool.false_ne_true (congrArg Except.toBool e)).elim
    | command w =>
      generalize hd : decode s.cfg.variant w = d
      induction d with
      | ok i => exact run i rest ((step_of_command hin hd).symm.trans h)
      | error e => exact (Host.Outcome.next.inj ((step_of_undecoded hin hd).symm.trans h)).subst (motive := P) (illegal rest)

theorem V2Writes.cfg_eq {c : Slot} {s t : State} (h : V2Writes c s t) : t.cfg = s.cfg := by
  induction c <;> exact (congrArg State.cfg h :)

theorem exec_cfg {i : Instr} {s t : State} (h : exec i s = .next t) : t.cfg = s.cfg :=
  exec_next_cases (P := fun t => t.cfg = s.cfg) h (fun _x => rfl) (fun _x => rfl)
    (fun c j _h => State.setInst_cfg s c j) (fun _x => rfl) (fun _x => rfl) (fun _x _h _h => rfl)
    (fun _c _x _r _h _h => (State.setDly_cfg ..).trans (State.setInst_cfg ..)) (fun c x => silence_cfg c x s)
    (fun _x _u _h _h run => (congrArg State.cfg (v1Loop_writes run) :).trans (silence_cfg ..))
    (fun c x _u _p _h run => (v2Loop_writes run).1.cfg_eq.trans (silence_cfg c x s))

/-- Settles O11: a move of the host writes one block word, and a command keeps the configuration. -/
theorem stepKeepsConfiguration : Obligations.StepKeepsConfiguration := fun _s _t h =>
  step_next_cases (P := fun t => t.cfg = _) h rfl (fun _c _n _v _r => State.setBlkWord_cfg ..) (fun _r => rfl)
    fun _i _r h => (exec_cfg h :)

end Sys2Proof.Machine

/- # Proofs: an active `PROC1` (`43_engine_v1.md`) -/

namespace Sys2Proof.Machine

/- ## The block after `n` samples (rule R157) -/

/-- The index of the store has advanced by `n`. -/
def V1Index (s : State) (n : Nat) (t : State) : Prop :=
  t.inst0.widx.toNat = (s.inst0.widx.toNat + n) % s.inst0.cap.toNat

/-- Outside the words of `n` samples the line holds what it held. -/
def V1Line (s : State) (n : Nat) (t : State) : Prop :=
  ∀ a, (∀ k < n, a / 2 ≠ (s.inst0.widx.toNat + k) % s.inst0.cap.toNat) →
    Memory.readByte t.dly0 a = Memory.readByte s.dly0 a

/-- Above the block the window holds what it held. -/
def V1Window (s t : State) : Prop :=
  ∀ a, 2 * s.cfg.blockN ≤ a → Memory.readByte t.blk0 a = Memory.readByte s.blk0 a

/-- What holds after `n` samples of a `PROC1` on `s`, under every admissible rounding. -/
def V1Progress (s : State) (n : Nat) (t : State) : Prop :=
  StateOk t ∧ V1Writes s t ∧ V1Index s n t ∧ V1Line s n t ∧ V1Window s t

/-- A byte above the first `k` words lies in none of them. -/
theorem word_ne_of_le {n k a : Nat} (hn : n < k) (h : 2 * k ≤ a) : a / 2 ≠ n :=
  Nat.ne_of_gt (hn.trans_le ((Nat.le_div_iff_mul_le two_pos).2 ((Nat.mul_comm k 2).trans_le h)))

theorem V1Writes.cfg_eq {s t : State} (h : V1Writes s t) : t.cfg = s.cfg := (congrArg State.cfg h :)

theorem V1Writes.inited_eq {s t : State} (h : V1Writes s t) : t.inst0.inited = s.inst0.inited :=
  (congrArg (fun u => u.inst0.inited) h :)

/-- One more sample: it answers, and stores at the index it finds. -/
theorem V1Progress.sample {s t : State} {n : Nat} (h : V1Progress s n t) (hv : s.cfg.variant = .v1)
    (hi : s.inst0.inited = true) (hn : n < s.cfg.blockN) : ∃ u, v1Sample n t = .ok u ∧ V1Progress s (n + 1) u := by
  have ok : StateOk t := h.1
  have writes : V1Writes s t := h.2.1
  have index : V1Index s n t := h.2.2.1
  have ends := v1Sample_ends (n := n) ok ((congrArg Config.variant writes.cfg_eq).trans hv)
    (writes.inited_eq.trans hi)
  refine ends.elim fun rl e => e.elim fun rr e => e.elim fun pl e => e.elim fun pr e => ?_
  have reads := e.1
  refine ⟨_, v1Sample_of_reads reads, v1After_ok ok reads.widx_lt e.2.1 e.2.2,
    writes.trans (v1After_writes n rl rr pl pr t), ?_, fun a ha => ?_, fun a ha => ?_⟩
  · exact (nextIndex_toNat reads.widx_lt).trans ((congrArg₂ (fun w (cap : BitVec 24) => (w + 1) % cap.toNat) index (congrArg (fun u => u.inst0.cap) writes :)).trans
      ((Nat.mod_add_mod ..).trans (congrArg (fun k => k % _) (Nat.add_assoc ..))))
  · exact (Memory.readByte_writeWord_other ok.dly0_wf _ (index.symm.subst (motive := fun k => a / 2 ≠ k) (ha n n.lt_succ_self))).trans
      (h.2.2.2.1 a fun k hk => ha k (Nat.lt_succ_of_lt hk))
  · exact (Memory.readByte_writeWord_other ok.blk0_wf _ (word_ne_of_le hn ha)).trans (h.2.2.2.2 a ha)

/-- An active `PROC1` is its sample loop on the prepared block (rules R154, R156). -/
theorem exec_proc1_of_loop {s u : State} (inValid : Bool) (hv : s.cfg.variant = .v1) (hi : s.inst0.inited = true)
    (hb : s.inst0.bypass = false)
    (h : forSamples v1Sample s.cfg.blockN (substituteSilence .s0 inValid s) = .ok u) :
    exec (.proc1 inValid) s = .next (u.setResp okWord) := by
  exact (congrArg (onVariant .v1 s) ((if_neg (ne_false_of_eq_true hi)).trans ((if_neg (ne_true_of_eq_false hb)).trans (by rw [h])))).trans
    (onVariant_respond_ok u hv)

theorem V1Progress.of_silence {s : State} (inValid : Bool) (h : StateOk s) (hi : s.inst0.inited = true) :
    V1Progress s 0 (substituteSilence .s0 inValid s) :=
  ⟨silence_ok .s0 inValid h, silence_v1Writes inValid s,
    (congrArg (fun i : Inst => i.widx.toNat) (silence_inst .s0 .s0 inValid s)).trans
      (Nat.mod_eq_of_lt (h.inst0_ok.widx_lt hi)).symm,
    fun a _h => congrArg (fun m => Memory.readByte m a) (silence_dly .s0 .s0 inValid s),
    fun _a => readByte_substituteSilence_of_le .s0 inValid s⟩

/-- The whole block of an active `PROC1`: the invariant of the samples, carried through it. -/
theorem v1Loop_ends {s : State} (inValid : Bool) (h : StateOk s) (hv : s.cfg.variant = .v1)
    (hi : s.inst0.inited = true) :
    ∃ u, forSamples v1Sample s.cfg.blockN (substituteSilence .s0 inValid s) = .ok u ∧ V1Progress s s.cfg.blockN u :=
  forSamples_ends (V1Progress.of_silence inValid h hi) fun _n _t hn ht => ht.sample hv hi hn

/-- Settles O20: the invariant after the last sample. -/
theorem proc1Completes : Obligations.Proc1Completes := by
  intro s inValid ok hv hi hb
  have h := (v1Loop_ends inValid ok hv hi).choose_spec
  exact ⟨_, exec_proc1_of_loop inValid hv hi hb h.1, congrArg (fun u => State.setResp u okWord) h.2.2.1, h.2.2.2.1,
    h.2.1.v1_ok.phL_ok, h.2.1.v1_ok.phR_ok, h.2.2.2.2⟩

/-- A loop each of whose samples is a function is the fold of that function. -/
theorem forSamples_eq_foldl {σ : Type} {f : Nat → σ → Except Fault σ} {g : σ → Nat → σ} {P : Nat → σ → Prop} {N : Nat}
    {x : σ} (h0 : P 0 x) (hs : ∀ n y, n < N → P n y → f n y = .ok (g y n) ∧ P (n + 1) (g y n)) :
    forSamples f N x = .ok ((List.range N).foldl g x) ∧ P N ((List.range N).foldl g x) := by
  have ends := forSamples_ends (N := N) (P := fun n y => y = (List.range n).foldl g x ∧ P n y) ⟨rfl, h0⟩
    fun n y hn hy => ⟨g y n, (hs n y hn hy.2).1, (congrArg (fun y => g y n) hy.1).trans (foldl_range_succ g n x).symm,
      (hs n y hn hy.2).2⟩
  exact ends.elim fun y h => h.2.1.subst (motive := fun y => forSamples f N x = .ok y ∧ P N y) ⟨h.1, h.2.2⟩

/-- Settles O21: sample by sample `v1Sample` is `v1SampleExact`, which keeps the invariant. -/
theorem proc1ComputesTheRecurrence : Obligations.Proc1ComputesTheRecurrence := by
  intro s inValid ok hx hv hi hb
  refine exec_proc1_of_loop inValid hv hi hb
    (forSamples_eq_foldl (V1Progress.of_silence inValid ok hi) fun n t hn ht => ?_).1
  have next := (ht.sample hv hi hn).choose_spec
  have ok : StateOk t := ht.1
  have writes : V1Writes _ t := ht.2.1
  have e := v1Sample_exact (n := n) ok ((congrArg Config.rounding writes.cfg_eq).trans hx)
    ((congrArg Config.variant writes.cfg_eq).trans hv) (writes.inited_eq.trans hi)
  exact ⟨e, (Except.ok.inj (next.1.symm.trans e)).subst (motive := V1Progress s (n + 1)) next.2⟩

end Sys2Proof.Machine

namespace Sys2Proof.Machine

/- ## SETMIX (rules R144, R164) -/

theorem toNat_ofInt {n : Nat} {w : Int} (h0 : 0 ≤ w) (h1 : w < (2 ^ n : Nat)) : ((BitVec.ofInt n w).toNat : Int) = w := by
  exact (congrArg Nat.cast ((BitVec.toNat_ofInt w).trans (congrArg Int.toNat (Int.emod_eq_of_lt h0 h1)))).trans
    (Int.toNat_of_nonneg h0)

/-- The two registers after `SETMIX`: the weight of the mix, and what is left of 256. -/
theorem weights_toNat (c : Config) (m : Rat) :
    ((BitVec.ofInt 9 (wetWeight c m)).toNat : Int) = wetWeight c m ∧
      (BitVec.ofInt 9 (wetWeight c m)).toNat + (BitVec.ofInt 9 (256 - wetWeight c m)).toNat = 256 :=
  have h0 : 0 ≤ wetWeight c m := clampInt_ge (by decide)
  have h1 : wetWeight c m ≤ 256 := clampInt_le (by decide)
  have wet := toNat_ofInt (n := 9) h0 (Int.lt_of_le_of_lt h1 (by decide))
  have dry := toNat_ofInt (n := 9) (Int.sub_nonneg_of_le h1) (Int.lt_of_le_of_lt (Int.sub_le_self _ h0) (by decide))
  ⟨wet, Int.ofNat.inj ((congrArg₂ HAdd.hAdd wet dry).trans ((Int.add_comm ..).trans (Int.sub_add_cancel ..)))⟩

/-- Settles O26: the clamp of the weight never binds, whatever keeps the product in [0, 256]. -/
theorem setMix : Obligations.SetMix := by
  intro s q hv
  have clamped := clampReal_spec (lo := 0) (hi := 1) (q16 q) (by with_unfolding_all decide)
  have nonneg : (0 : Rat) ≤ 256 := by with_unfolding_all decide
  have weights := weights_toNat s.cfg (clamp01 (q16 q))
  have m0 := clamp01_ge (q16 q)
  have m1 := clamp01_le (q16 q)
  have floor (h : 0 ≤ rmul s.cfg (clamp01 (q16 q)) 256 ∧ rmul s.cfg (clamp01 (q16 q)) 256 ≤ 256) :=
    weights.1.trans (wetWeight_eq h.1 h.2)
  have kept (h : rmul s.cfg (clamp01 (q16 q)) 256 = clamp01 (q16 q) * 256) :=
    (floor ⟨(Rat.mul_nonneg m0 nonneg).trans_eq h.symm,
      h.trans_le ((Rat.mul_le_mul_of_nonneg_right m1 nonneg).trans_eq (Rat.one_mul _))⟩).trans (congrArg (fun x => ⌊x + 1 / 2⌋) h)
  exact ⟨clamp01 (q16 q), _, _, clamped.1, clamped.2.1, clamped.2.2, weights.2, kept, fun hr => floor (mixProduct_mem hr m0 m1),
    fun hx => kept (rmul_exact hx _ _), onVariant_respond_ok (mixSet (clamp01 (q16 q)) s) hv⟩

/- ## GETPH (rule R204) -/

theorem scale_pos : (0 : Rat) < 4294967296 := Nat.ofNat_pos

theorem exec_getph_of_v2 {s : State} (h : s.cfg.variant = .v2) :
    exec .getph s = .next (s.setResp (valueWord (BitVec.ofInt 32 (s.latch.phase * 4294967296).floor))) :=
  onVariant_respond_value _ h

/-- Settles O40: a canonical phase has 32 bits before the point after the scaling that `uq32` undoes. -/
theorem getPhaseReturnsThePhase : Obligations.GetPhaseReturnsThePhase := fun s hv =>
  ⟨fun hp => ⟨_, toNat_ofInt (n := 32) (Rat.le_floor_iff.2 (Rat.mul_nonneg hp.1 (Rat.le_of_lt scale_pos)))
      (Rat.floor_lt_iff.2 ((Rat.mul_lt_mul_of_pos_right hp.2 scale_pos).trans_eq (Rat.one_mul _))), exec_getph_of_v2 hv⟩,
    fun p t h => by
      have e := Host.Outcome.next.inj ((exec_syncph_of_v2 p hv).symm.trans h)
      have scaled : t.latch.phase * 4294967296 = p.toNat := 
        (congrArg (fun u => u.latch.phase * 4294967296) e).symm.trans (Rat.div_mul_cancel scale_pos.ne')
      refine (exec_getph_of_v2 ((congrArg (fun u => u.cfg.variant) e).symm.trans hv)).trans (congrArg (fun v => Host.Outcome.next (t.setResp (valueWord v))) ?_)
      exact (congrArg (fun x : Rat => BitVec.ofInt 32 ⌊x⌋) scaled).trans ((congrArg _ (Rat.floor_intCast p.toNat)).trans
        ((BitVec.ofInt_natCast ..).trans ((BitVec.ofNat_toNat ..).trans (BitVec.setWidth_eq p))))⟩

theorem uq32_isPhase (p : Operand) : IsPhase (uq32 p) :=
  ⟨Rat.div_nonneg Rat.natCast_nonneg (Rat.le_of_lt scale_pos),
    (Rat.div_lt_iff scale_pos).2 ((Rat.natCast_lt_natCast.2 p.isLt).trans_eq (Rat.one_mul _).symm)⟩

/- ## Reset (rule R51) -/

theorem inst_reset_ok {c : Config} (h0 : rateMin c ≤ 1 / 2) (h1 : 1 / 2 ≤ rateMax c) : InstOk c (Inst.reset c) :=
  ⟨fun h => absurd h Bool.false_ne_true, fun h => absurd h Bool.false_ne_true, rfl, h0, h1, (by with_unfolding_all decide : (0 : Rat) ≤ 1), Rat.le_refl,
    fun _r h => absurd h.symm (Option.some_ne_none _)⟩

/-- The reset mix of 1/2 has the weight 128, which no admissible rounding moves. -/
theorem wetWeight_half {c : Config} (hr : RoundingAdmissible c) : wetWeight c (1 / 2) = 128 := by
  have half : rmul c (1 / 2) 256 = 128 :=
    (congrArg (roundReal c) (by with_unfolding_all decide : (1 / 2 * 256 : Rat) = (128 : Nat))).trans (roundReal_nat hr (by decide))
  exact (congrArg (fun x => clampInt (roundHalfAway x) 0 256) half).trans (by with_unfolding_all decide)

theorem quarter_eq : (1 / 4 : Rat) = fracPart (0 + 1 / 4) := by with_unfolding_all decide

theorem zero_isPhase : IsPhase 0 := ⟨Rat.le_refl, by with_unfolding_all decide⟩

theorem quarter_isPhase : IsPhase (1 / 4) := quarter_eq.symm.subst (motive := IsPhase) (fracPart_isPhase _)

/-- Settles O57: clause by clause. -/
theorem resetIsWellFormed : Obligations.ResetIsWellFormed := fun _c _d _e _f _g hc h0 h1 d0 d1 b0 b1 =>
  have half : (0 : Rat) ≤ 1 / 2 ∧ (1 / 2 : Rat) ≤ 1 := by with_unfolding_all decide
  ⟨hc, inst_reset_ok h0 h1, inst_reset_ok h0 h1,
    ⟨half.1, half.2, rfl, (wetWeight_half hc.rounding_ok).symm, rfl, zero_isPhase, quarter_isPhase⟩,
    ⟨zero_isPhase, zero_isPhase, zero_isPhase, Nat.zero_le _, fun _h => ⟨rfl, rfl⟩⟩, d0, d1, b0, b1⟩

end Sys2Proof.Machine

namespace Sys2Proof.Machine

/- ## The quarter cycle (rule R127) -/

/-- The right phase stands a quarter cycle ahead of the left one. -/
def Quadrature (v : V1Regs) : Prop := v.phR = fracPart (v.phL + 1 / 4)

theorem fracPart_quarter (p i : Rat) : fracPart (fracPart (p + 1 / 4) + i) = fracPart (fracPart (p + i) + 1 / 4) :=
  (fracPart_add _ _).trans ((congrArg fracPart (add_right_comm _ _ _)).trans (fracPart_add _ _).symm)

/-- Both phases of a sample move by the same increment. -/
theorem v1Loop_quadrature {k : Nat} {s t : State} (run : forSamples v1Sample k s = .ok t)
    (hx : s.cfg.rounding = .exact) (h : Quadrature s.v1) : Quadrature t.v1 := by
  refine (forSamples_invariant (P := fun _ u => u.cfg.rounding = .exact ∧ Quadrature u.v1) ⟨hx, h⟩
    (fun n u w _h hu hw => ?_) run).2
  refine (v1Sample_ok hw).elim fun rl h => h.elim fun rr h => h.elim fun pl h => h.elim fun pr h => ?_
  have reads := h.1
  have l := Except.ok.inj ((lfoAdvance_exact hu.1 _ _).symm.trans reads.advL)
  have r := Except.ok.inj ((lfoAdvance_exact hu.1 _ _).symm.trans reads.advR)
  exact h.2.symm.subst (motive := fun w => w.cfg.rounding = .exact ∧ Quadrature w.v1) ⟨hu.1, r.symm.trans ((congrArg (fun p => fracPart (p + _)) hu.2).trans
    ((fracPart_quarter ..).trans (congrArg (fun p => fracPart (p + 1 / 4)) l)))⟩

theorem silence_v1 (c : Slot) (inV : Bool) (s : State) : (substituteSilence c inV s).v1 = s.v1 :=
  (congrArg State.v1 (substituteSilence_eq_setBlk c inV s)).trans (State.setBlk_v1 ..)

theorem V2Writes.v1_eq {c : Slot} {s t : State} (h : V2Writes c s t) : t.v1 = s.v1 := by
  induction c <;> exact (congrArg State.v1 h :)

theorem exec_quadrature {i : Instr} {s t : State} (h : exec i s = .next t) (hx : s.cfg.rounding = .exact)
    (hq : Quadrature s.v1) : Quadrature t.v1 :=
  exec_next_cases (P := fun t => Quadrature t.v1) h (fun _x => hq) (fun _x => hq)
    (fun c j _h => (State.setInst_v1 s c j).symm.subst (motive := Quadrature) hq) (fun _x => hq)
    (fun _x => hq) (fun _x _h _h => quarter_eq)
    (fun _c _x _r _h _h => ((State.setDly_v1 ..).trans (State.setInst_v1 ..)).symm.subst (motive := Quadrature) hq)
    (fun c x => (silence_v1 c x s).symm.subst (motive := Quadrature) hq)
    (fun x _u _h _h run => (v1Loop_quadrature run ((congrArg Config.rounding (silence_cfg .s0 x s)).trans hx)
      ((silence_v1 .s0 x s).symm.subst (motive := Quadrature) hq) :))
    (fun c x _u _p _h run => ((v2Loop_writes run).1.v1_eq.trans (silence_v1 c x s)).symm.subst (motive := Quadrature) hq)

/-- Settles O29: `INIT1` sets the two phases so, `PROC1` moves them together, nothing else writes them. -/
theorem quadratureIsKept : Obligations.QuadratureIsKept :=
  ⟨fun _s _t hx hq h => step_next_cases (P := fun t => Quadrature t.v1) h hq
    (fun _c _n _v _r => (State.setBlkWord_v1 ..).symm.subst (motive := Quadrature) hq) (fun _r => hq) fun _i _r h => exec_quadrature h hx hq,
  fun _c _d _e _f _g => quarter_eq⟩

end Sys2Proof.Machine

namespace Sys2Proof.Machine

/-- Settles O52: the step is a fraction `a` of the way from the state to the input. -/
theorem filterIsConvex : Obligations.FilterIsConvex := by
  intro c y a x hx h0 h1
  have e := onepole_exact hx y a x
  have zero : y + 0 * (x - y) = y := (congrArg (fun k => y + k) (Rat.zero_mul _)).trans (Rat.add_zero y)
  have one : y + 1 * (x - y) = x := (congrArg (fun k => y + k) (Rat.one_mul _)).trans (add_sub_cancel y x)
  have up {a b : Rat} (h : y ≤ x) (hab : a ≤ b) : y + a * (x - y) ≤ y + b * (x - y) :=
    Rat.add_le_add_left.2 (Rat.mul_le_mul_of_nonneg_right hab ((Rat.le_iff_sub_nonneg ..).1 h))
  have flip (a : Rat) : -(a * (y - x)) = a * (x - y) := (Rat.mul_neg ..).symm.trans (congrArg (fun k => a * k) (Rat.neg_sub y x))
  have down {a b : Rat} (h : x ≤ y) (hab : a ≤ b) : y + b * (x - y) ≤ y + a * (x - y) :=
    Rat.add_le_add_left.2 ((flip b).symm.trans_le
      ((Rat.neg_le_neg (Rat.mul_le_mul_of_nonneg_right hab ((Rat.le_iff_sub_nonneg ..).1 h))).trans_eq (flip a)))
  exact ⟨fun h => ⟨(zero.symm.trans_le (up h h0)).trans_eq e.symm, e.trans_le ((up h h1).trans_eq one)⟩,
    fun h => ⟨(one.symm.trans_le (down h h1)).trans_eq e.symm, e.trans_le ((down h h0).trans_eq zero)⟩,
    fun h => e.trans ((congrArg (fun k => y + k * (x - y)) h).trans zero), fun h => e.trans ((congrArg (fun k => y + k * (x - y)) h).trans one)⟩

/- ## The filters in the sample range (rule R136) -/

/-- A filter between two samples stays between them. -/
theorem onepole_mem {c : Config} (hx : c.rounding = .exact) {y a x lo hi : Rat} (h0 : 0 ≤ a) (h1 : a ≤ 1)
    (hy : lo ≤ y ∧ y ≤ hi) (hr : lo ≤ x ∧ x ≤ hi) : lo ≤ onepole c y a x ∧ onepole c y a x ≤ hi := by
  have convex := filterIsConvex c y a x hx h0 h1
  exact Rat.le_total.elim (fun h => ⟨hy.1.trans (convex.1 h).1, (convex.1 h).2.trans hr.2⟩)
    fun h => ⟨hr.1.trans (convex.2.1 h).1, (convex.2.1 h).2.trans hy.2⟩

/-- What holds of every engine and of the new registers of one holds of every engine after they are set. -/
theorem setInst_all {s : State} {P : Inst → Prop} (h : ∀ d, P (s.inst d)) {c : Slot} {j : Inst} (hj : P j) (d : Slot) :
    P ((s.setInst c j).inst d) := by
  induction c <;> induction d
  · exact hj
  · exact h .s1
  · exact h .s0
  · exact hj

theorem dlReadI_v2Stored_mem {c : Slot} {n : Nat} {r d : Rat} {s : State} (hx : s.cfg.rounding = .exact)
    (hw : (s.inst c).widx.toNat < (s.inst c).cap.toNat) (hr : dlReadI c d (v2Stored c n s) = .ok r) :
    -32768 ≤ r ∧ r ≤ 32767 := by
  induction c
  · exact dlReadI_mem (c := .s0) (s := v2Stored .s0 n s) hx hw hr
  · exact dlReadI_mem (c := .s1) (s := v2Stored .s1 n s) hx hw hr

/-- One sample of `PROC2` filters an input sample and a read of the line. -/
theorem v2After_filters {c : Slot} {n : Nat} {r d : Rat} {s : State} (hc : ConfigAdmissible s.cfg)
    (hx : s.cfg.rounding = .exact) (hw : (s.inst c).widx.toNat < (s.inst c).cap.toNat)
    (hr : dlReadI c d (v2Stored c n s) = .ok r) (h : ∀ d, FiltersOk (s.inst d)) (d : Slot) :
    FiltersOk ((v2After c n r s).inst d) := by
  have x := sample_toInt_mem (s.blkWord c n)
  have pre : -32768 ≤ v2Pre c n s ∧ v2Pre c n s ≤ 32767 := onepole_mem hx hc.a_pre_ge hc.a_pre_le
    ⟨(h c).pre_ge, (h c).pre_le⟩ ⟨Rat.intCast_le_intCast.2 x.1, Rat.intCast_le_intCast.2 x.2⟩
  have post := onepole_mem hx hc.a_post_ge hc.a_post_le ⟨(h c).post_ge, (h c).post_le⟩ (dlReadI_v2Stored_mem hx hw hr)
  have e : (v2After c n r s).inst d = _ := (State.setBlk_inst ..).trans (State.setDly_inst ..)
  exact e.symm.subst (motive := FiltersOk) (setInst_all h ⟨pre.1, pre.2, post.1, post.2⟩ d)

/- ## Well-formed states (rule R51) -/

theorem setInst_ok {s : State} (c : Slot) {j : Inst} (h : StateOk s) (hj : InstOk s.cfg j) : StateOk (s.setInst c j) := by
  induction c
  · exact { h with inst0_ok := hj }
  · exact { h with inst1_ok := hj }

theorem setDly_ok {s : State} (c : Slot) {m : Memory} (h : StateOk s) (hm : Memory.wf m = true) :
    StateOk (s.setDly c m) := by
  induction c
  · exact { h with dly0_wf := hm }
  · exact { h with dly1_wf := hm }

/-- The registers of an engine after `INIT` (rules R152, R172). -/
theorem inited_ok {c : Config} {i : Inst} {k : Nat} (h : InstOk c i) (hk : minLen c = k) (pos : 0 < k)
    {len : BitVec 24} (hlen : k ≤ len.toNat) (right : Bool) (pre post : Rat) : InstOk c
      { i with inited := true, cap := len, widx := 0, isRight := right, preY := pre, postY := post } :=
  { h with widx_lt := fun _h => pos.trans_le hlen, cap_ge := fun _h => hk.trans_le hlen }

theorem v1Inited_ok {s : State} (ok : StateOk s) (hv : s.cfg.variant = .v1) {len : BitVec 24}
    (hlen : v1MinLen ≤ len.toNat) : StateOk (v1Inited len s) :=
  { ok with
    inst0_ok := inited_ok ok.inst0_ok (minLen_of_v1 hv) (by decide) hlen s.inst0.isRight s.inst0.preY s.inst0.postY
    v1_ok := { ok.v1_ok with base_eq := rfl, phL_ok := zero_isPhase, phR_ok := quarter_isPhase }
    dly0_wf := Memory.zeroWords_wf _ ok.dly0_wf
    dly1_wf := Memory.zeroWords_wf _ ok.dly1_wf }

theorem v2Inited_ok {s : State} (c : Slot) (right : Bool) (ok : StateOk s) (hv : s.cfg.variant = .v2) {len : BitVec 24}
    (hlen : v2MinLen ≤ len.toNat) : StateOk (v2Inited c len right s) :=
  setDly_ok c (setInst_ok c ok (inited_ok (inst_ok ok c) (by delta minLen; rw [hv]) (by decide) hlen right 0 0))
    (Memory.zeroWords_wf _ (dly_wf ok c))

theorem mixSet_ok {s : State} (x : Rat) (ok : StateOk s) : StateOk (mixSet (clamp01 x) s) :=
  have weights := weights_toNat s.cfg (clamp01 x)
  { ok with v1_ok := { ok.v1_ok with
      mix_ge := clamp01_ge x
      mix_le := clamp01_le x
      weights_sum := weights.2
      wet_eq := weights.1 } }

/-- The invariant of a command on `s`: the state is well-formed and, where `s` meets the premises of rule R136,
every filter is in range. -/
def KeptFrom (s t : State) : Prop :=
  StateOk t ∧ (s.cfg.rounding = .exact → (∀ d, FiltersOk (s.inst d)) → ∀ d, FiltersOk (t.inst d))

/-- The samples of `PROC2` keep the invariant. -/
theorem v2Loop_kept {s : State} {c : Slot} {pass : Bool} {x y : State × Rat} (hv : s.cfg.variant = .v2)
    (run : v2Loop c pass x = .ok y) (hc : x.1.cfg = s.cfg) (hp : IsPhase x.2) (h : KeptFrom s x.1) :
    IsPhase y.2 ∧ KeptFrom s y.1 := by
  induction pass with
  | true => exact (Except.ok.inj run).subst (motive := fun y => IsPhase y.2 ∧ KeptFrom s y.1) ⟨hp, h⟩
  | false =>
    refine (forSamples_invariant (P := fun _ (z : State × Rat) => z.1.cfg = s.cfg ∧ IsPhase z.2 ∧ KeptFrom s z.1)
      ⟨hc, hp, h⟩ (fun n z z' _h hz hz' => ?_) run).2
    have hc : z.1.cfg = s.cfg := hz.1
    have kept : KeptFrom s z.1 := hz.2.2
    refine (v2Sample_ok (s := z.1) (lp := z.2) (t := z'.1) (lp' := z'.2) hz').elim fun _pe h => h.elim fun r h => ?_
    have reads := h.1
    exact h.2.symm.subst (motive := fun u => u.cfg = s.cfg ∧ IsPhase z'.2 ∧ KeptFrom s u) ⟨(v2After_cfg c n r z.1).trans hc,
      lfoAdvance_phase kept.1.cfg_ok.rounding_ok hz.2.1 (phinc_ok kept.1 ((congrArg Config.variant hc).trans hv) c).1 reads.advance,
      v2After_ok kept.1 reads.widx_lt,
      fun hx hf => v2After_filters kept.1.cfg_ok ((congrArg Config.rounding hc).trans hx) reads.widx_lt reads.read (kept.2 hx hf)⟩

theorem FiltersOk.of_eq {i j : Inst} (h : FiltersOk i) (pre : j.preY = i.preY) (post : j.postY = i.postY) :
    FiltersOk j :=
  ⟨h.pre_ge.trans_eq pre.symm, pre.trans_le h.pre_le, h.post_ge.trans_eq post.symm, post.trans_le h.post_le⟩

theorem exec_kept {i : Instr} {s t : State} (h : exec i s = .next t) (ok : StateOk s) : KeptFrom s t := by
  have quiet {u} (h : StateOk u) (e : ∀ d, u.inst d = s.inst d) : KeptFrom s u := ⟨h, fun _h hf d => (e d).symm.subst (motive := FiltersOk) (hf d)⟩
  have zero : (-32768 : Rat) ≤ 0 ∧ (0 : Rat) ≤ 32767 := by decide
  refine exec_next_cases (P := KeptFrom s) h (fun st => quiet (setResp_ok _ ok) fun _h => rfl)
    (fun v => quiet (setResp_ok _ ok) fun _h => rfl)
    (fun c j hj => ?_)
    (fun x => quiet (setResp_ok _ (mixSet_ok x ok)) fun _h => rfl)
    (fun p => quiet (setResp_ok _ (setLatch_ok ok { ok.latch_ok with phase_ok := uq32_isPhase p })) fun _h => rfl)
    (fun len hv hlen => ⟨setResp_ok _ (v1Inited_ok ok hv hlen), fun _h hf => setInst_all (c := .s0)
      (j := (v1Inited len s).inst0) hf ((hf .s0).of_eq rfl rfl)⟩)
    (fun c len right hv hlen => ⟨setResp_ok _ (v2Inited_ok c right ok hv hlen),
      fun _h hf d => (State.setDly_inst ..).symm.subst (motive := FiltersOk)
        (setInst_all hf ⟨zero.1, zero.2, zero.1, zero.2⟩ d)⟩)
    (fun c inV => quiet (setResp_ok _ (silence_ok c inV ok)) (fun d => silence_inst c d inV s))
    (fun inV u hv hi run => ?_)
    (fun c inV u lp hv run => ?_)
  · have kept := hj ok.cfg_ok
    exact ⟨setResp_ok _ (setInst_ok c ok (kept.2.2 (inst_ok ok c))),
      fun _h hf => setInst_all hf ((hf c).of_eq kept.1 kept.2.1)⟩
  · have h : StateOk u ∧ V1Writes s u := (v1Loop_ends inV ok hv hi).elim fun _u e =>
      (Except.ok.inj (e.1.symm.trans run)).subst (motive := fun u => StateOk u ∧ V1Writes s u) ⟨e.2.1, e.2.2.1⟩
    exact ⟨setResp_ok _ h.1, fun _h hf d => (congrArg (fun u => State.inst u d) h.2).symm.subst (motive := FiltersOk)
      (setInst_all (c := .s0) (j := { s.inst0 with widx := u.inst0.widx }) hf ((hf .s0).of_eq rfl rfl) d)⟩
  · have kept := v2Loop_kept hv run (silence_cfg c inV s) (latchBegin_ok ok.latch_ok).start_ok
      ⟨(v2Begun_keepsSettings c inV ok).1, fun _h hf d => (silence_inst c d inV s).symm.subst (motive := FiltersOk) (hf d)⟩
    exact ⟨setResp_ok _ (setLatch_ok kept.2.1 (latchEnd_ok kept.2.1.latch_ok
      ((congrArg Latch.valid (v2Loop_writes run).2).trans (latchBegin_valid s.latch)) _ _ kept.1)), kept.2.2⟩

theorem step_kept {s t : State} (h : step s = .next t) (ok : StateOk s) : KeptFrom s t :=
  step_next_cases (P := KeptFrom s) h ⟨ok, fun _h hf => hf⟩
    (fun c n v rest => ⟨setBlkWord_ok c n v (withInput_keepsSettings rest ok).1,
      fun _h hf d => (State.setBlk_inst ..).symm.subst (motive := FiltersOk) (hf d)⟩)
    (fun rest => ⟨setResp_ok _ (withInput_keepsSettings rest ok).1, fun _h hf => hf⟩)
    fun _i rest h => (exec_kept h (withInput_keepsSettings rest ok).1 :)

/-- Settles O58: a move of the host writes a block word, and every command keeps the clauses. -/
theorem stepKeepsStateWellFormed : Obligations.StepKeepsStateWellFormed := fun _s _t ok h => (step_kept h ok).1

/-- Settles O59: the same invariant, with its premises met. -/
theorem stepKeepsFiltersInRange : Obligations.StepKeepsFiltersInRange := fun _s _t ok hx h0 h1 h =>
  have := (step_kept h ok).2 hx fun d => by
    induction d
    · exact h0
    · exact h1
  ⟨this .s0, this .s1⟩

end Sys2Proof.Machine

namespace Sys2Proof.Machine

/-- Settles O47: the read is total in exact arithmetic, and interpolates between two samples. -/
theorem readStaysInSampleRange : Obligations.ReadStaysInSampleRange := by
  intro s c d hx hw
  obtain ⟨r, hr⟩ := dlReadI_exact_ends d hx hw
  exact ⟨r, hr, dlReadI_mem hx hw hr⟩

/- ## LFOVAL2 (rule R131) -/

/-- The triangle through 0, 1 and 0, which no rounding passes. -/
theorem tri01_mem {c : Config} {p : Rat} (hr : RoundingAdmissible c) (hp : IsPhase p) :
    0 ≤ tri01 c p ∧ tri01 c p ≤ 1 := by
  have nonneg : (0 : Rat) ≤ 2 := by with_unfolding_all decide
  have half : (2 : Rat) * (1 / 2) = 1 := by with_unfolding_all decide
  have two_eq : (2 : Rat) = 1 + (1 : Nat) := by with_unfolding_all decide
  by_cases h : p < 1 / 2
  · have e : tri01 c p = rmul c 2 p := if_pos h
    exact e.symm.subst (motive := fun x => 0 ≤ x ∧ x ≤ 1)
      ⟨rmul_nonneg hr nonneg hp.1, roundReal_le_one hr ((Rat.mul_le_mul_of_nonneg_left h.le nonneg).trans_eq half)⟩
  · have one : ((1 : Nat) : Rat) ≤ rmul c 2 p := roundReal_ge_nat hr (by decide)
      (half.symm.trans_le (Rat.mul_le_mul_of_nonneg_left (Rat.not_lt.1 h) nonneg))
    have two : rmul c 2 p ≤ 2 := roundReal_le_two hr
      ((Rat.mul_le_mul_of_nonneg_left hp.2.le nonneg).trans_eq (Rat.mul_one 2))
    have e : tri01 c p = rsub c 2 (rmul c 2 p) := if_neg h
    exact e.symm.subst (motive := fun x => 0 ≤ x ∧ x ≤ 1) ⟨roundReal_nonneg hr ((Rat.le_iff_sub_nonneg ..).1 two),
      roundReal_le_one hr (Rat.sub_right_le_iff_le_add.2 (two_eq.trans_le (Rat.add_le_add_left.2 one)))⟩

/-- Settles O51: the composite is clamped, and the triangle needs no clamp. -/
theorem modulationInUnitInterval : Obligations.ModulationInUnitInterval := by
  intro c m p hr hp
  by_cases h : m = .combined
  · have e : lfoVal2 c m p = composite c p := if_pos h
    exact e.symm.subst (motive := fun x => 0 ≤ x ∧ x ≤ 1) ⟨clamp01_ge _, clamp01_le _⟩
  · have e : lfoVal2 c m p = tri01 c p := if_neg h
    exact e.symm.subst (motive := fun x => 0 ≤ x ∧ x ≤ 1) (tri01_mem hr hp)

/- ## V1DELAY and V2DELAY (rules R158, R181) -/

/-- Settles O55: the clamp's own range lies in the band of an admissible configuration. -/
theorem v1DelayStaysInBand : Obligations.V1DelayStaysInBand := by
  intro s t h hv hi
  have cap : v1MinLen ≤ s.inst0.cap.toNat := (minLen_of_v1 hv).symm.trans_le (h.inst0_ok.cap_ge hi)
  have lo := h.cfg_ok.max_delay_ge _ cap s.inst0.cap.isLt
  have ge : s.cfg.v1MinDelay ≤ v1Delay s t := clampReal_ge lo
  have le : v1Delay s t ≤ v1MaxDelayAt s.cfg s.inst0.cap.toNat := clampReal_le lo
  exact ⟨ge, le, h.cfg_ok.min_delay_ge.trans ge, le.trans (h.cfg_ok.max_delay_le _ cap s.inst0.cap.isLt),
    fun hx h0 h1 => (congrArg (fun x => clampReal x _ _) ((radd_exact hx ..).trans (congrArg (fun x => s.v1.base + x)
      ((rmul_exact hx ..).trans (congrArg (fun x => x * s.cfg.v1ModRange) (rmul_exact hx t s.inst0.depth)))))).trans
      (clampReal_of_mem h0 h1)⟩

end Sys2Proof.Machine

namespace Sys2Proof.Machine

/- ## Two blocks (rules R200, R202) -/

/-- Two `PROC2`, to slots that take part, both answer, and what they do to the latch. -/
theorem twoBlocks_cases {P : Prop} {s : State} {c d : Slot} (a b : Bool) (h : ExactV2 s) (hc : TakesPart s c)
    (hd : TakesPart s d)
    (k : ∀ t u, exec (.proc2 c a) s = .next t → exec (.proc2 d b) t = .next u → KeepsSettings s t →
      t.latch = latchAfterBlock s c → u.latch = latchAfterBlock t d → P) : P := by
  refine (exec_proc2_of_takesPart a h hc).elim fun t first => ?_
  have keeps : KeepsSettings s t := first.2.1
  exact (exec_proc2_of_takesPart b (h.of_keepsSettings keeps) (keeps.takesPart d hd)).elim fun u second =>
    k t u first.1 second.1 keeps first.2.2.1 second.2.2.1

/-- Settles O41: the second block of the tick from what the first leaves. -/
theorem normalTickAdvancesOneBlock : Obligations.NormalTickAdvancesOneBlock := by
  intro s l r first second a b ok hx hv hp order
  exact twoBlocks_cases a b ⟨ok, hx, hv⟩
    (order.elim (fun o => o.1.symm.subst (motive := TakesPart s) hp.left) fun o => o.1.symm.subst (motive := TakesPart s) hp.right)
    (order.elim (fun o => o.2.symm.subst (motive := TakesPart s) hp.right) fun o => o.2.symm.subst (motive := TakesPart s) hp.left) fun t u run run' keeps latch latch' =>
    ⟨t, u, run, run', latch'.trans (latchAfterBlock_second hp order keeps latch)⟩

/-- The same engine again: the tick ends, and commits what the primary published last. -/
theorem latchEnd_again {l : Latch} (hl : l.valid = false) (right : Bool) (e₁ e₂ : Rat) :
    latchEnd right true e₂ (latchBegin (latchEnd right true e₁ (latchBegin l))) =
      { phase := if right then l.phase else e₂
        valid := false
        start := l.phase
        endPh := if right then l.endPh else e₂
        ready := false
        count := 0 } := by
  refine (congrArg (latchEnd right true e₂) ((latchBegin_second hl right e₁).trans (latchEnd_first hl right e₁))).trans ?_
  induction right <;> rfl

/-- Settles O44: the latch after one block and after two of the same slot. -/
theorem soloInstances : Obligations.SoloInstances := by
  intro s c a b ok hx hv ht idle
  refine twoBlocks_cases a b ⟨ok, hx, hv⟩ ht ht fun t u run run' keeps latch latch' => ?_
  have first := latch.trans (latchEnd_first idle _ _)
  have start : (latchBegin t.latch).start = s.latch.phase := congrArg (fun l => (latchBegin l).start) first
  have stop : advanceBlock t c (latchBegin t.latch).start = advanceBlock s c s.latch.phase :=
    (keeps.advanceBlock_eq c _).trans (congrArg (advanceBlock s c) start)
  have second := latch'.trans ((congrArg₂ (fun r e => latchEnd r true e (latchBegin t.latch)) (keeps.isRight_eq c) stop).trans
    ((congrArg (fun l => latchEnd (s.inst c).isRight true (advanceBlock s c s.latch.phase) (latchBegin l)) latch).trans
      (latchEnd_again idle ..)))
  exact ⟨t, u, run, run', congrArg Latch.valid first, congrArg Latch.count first, (congrArg Latch.phase first :),
    congrArg Latch.valid second, congrArg Latch.count second, congrArg Latch.ready second, (congrArg Latch.phase second :)⟩

end Sys2Proof.Machine

namespace Sys2Proof.Machine

/- ## An active `PROC2` (`44_engine_v2.md`) -/

/-- In exact arithmetic the sample loop is the fold of the recurrence of rule R180. -/
theorem v2Samples_eq_foldl {c : Slot} {s : State} {lp : Rat} (N : Nat) (h : ExactV2 s) (ht : TakesPart s c)
    (hp : IsPhase lp) :
    forSamples (v2Sample c) N (s, lp) = .ok ((List.range N).foldl (fun y n => v2SampleExact c n y) (s, lp)) ∧
      BlockInv c s lp N ((List.range N).foldl (fun y n => v2SampleExact c n y) (s, lp)) := by
  refine forSamples_eq_foldl (P := BlockInv c s lp)
    ⟨.refl h.ok, rfl, rfl, (fracPart_of_phase hp).symm.trans (congrArg fracPart
      ((Rat.add_zero lp).symm.trans (congrArg (fun x => lp + x) (Rat.zero_mul _).symm)))⟩ fun n y _h hy => ?_
  have exact := h.of_keepsSettings hy.1
  have e := v2Sample_exact (n := n) (lp := y.2) exact.ok exact.variant (hy.1.takesPart c ht) exact.rounding
    (hy.2.2.2.symm.subst (motive := IsPhase) (fracPart_isPhase _))
  have next := (v2Sample_keeps_blockInv h ht hy).choose_spec
  exact ⟨e, (Except.ok.inj (next.1.symm.trans e)).subst (motive := BlockInv c s lp (n + 1)) next.2⟩

/-- Settles O33: `LATCH.BEGIN`, the fold and `LATCH.END`. -/
theorem proc2ComputesTheRecurrence : Obligations.Proc2ComputesTheRecurrence := by
  intro s c inValid ok hx hv ht l x
  have begun := v2Begun_keepsSettings c inValid ok
  have loop : forSamples (v2Sample c) s.cfg.blockN (v2Begun c inValid s, l.start) = .ok x ∧
      BlockInv c (v2Begun c inValid s) l.start s.cfg.blockN x :=
    v2Samples_eq_foldl _ (ExactV2.of_keepsSettings ⟨ok, hx, hv⟩ begun) (begun.takesPart c ht)
      (latchBegin_ok ok.latch_ok).start_ok
  have begins : v2Loop c false (v2Begun c inValid s, l.start) = _ :=
    congrArg (fun k : Config => forSamples (v2Sample c) k.blockN (v2Begun c inValid s, l.start)) (silence_cfg c inValid s)
  have run := (exec_proc2_eq_v2Block inValid hv ht).trans (congrArg outcomeOf (v2Block_of_loop (begins.trans loop.1)))
  exact run.trans (congrArg₂ (fun right m => Host.Outcome.next (respond true 0 (x.1.setLatch (latchEnd right true x.2 m))))
    ((begun.trans loop.2.1).isRight_eq c) loop.2.2.1)

end Sys2Proof.Machine

/- # Proofs: the worked encodings (`30_encoding.md`) -/

namespace Sys2Proof

theorem ne_ok_of_toBool {w : Word64} (h₁ : (decode .v1 w).toBool = false) (h₂ : (decode .v2 w).toBool = false)
    (v : Variant) (i : Instr) (h : decode v w = .ok i) : False := by
  have e := congrArg Except.toBool h
  induction v
  · exact Bool.false_ne_true (h₁.symm.trans e)
  · exact Bool.false_ne_true (h₂.symm.trans e)

/-- Settles O5: the table and the formats, computed on each word. -/
theorem workedEncodings : Obligations.WorkedEncodings :=
  ⟨⟨rfl, rfl⟩, rfl, rfl, ⟨rfl, rfl⟩, rfl, rfl, rfl, ⟨rfl, rfl⟩, ⟨rfl, by with_unfolding_all decide⟩,
    ne_ok_of_toBool rfl rfl, ne_ok_of_toBool rfl rfl, ne_ok_of_toBool rfl rfl⟩

end Sys2Proof

namespace Sys2Proof.Machine

/-- `s` on a device of variant `v`. -/
noncomputable def State.onDevice (s : State) (v : Variant) : State := { s with cfg := { s.cfg with variant := v } }

/-- On the other variant the guard that every command begins with lets none through. -/
theorem exec_onOtherDevice (i : Instr) (s : State) {v : Variant} (hv : (if i.variant = .v1 then .v2 else .v1) = v) :
    exec i (s.onDevice v) = .next (raiseStatus .illegal (s.onDevice v)) := by
  subst hv
  induction i with
  | proc1 a | setrate1 a | setdepth1 a | setmix a | setbyp1 a | getlen2 a | syncph a => rfl
  | proc2 a b | setrate2 a b | setdepth2 a b | setmode a b | setbyp2 a b => rfl
  | init1 a b c => rfl
  | init2 a b c d => rfl
  | getlen1 | getph => rfl

theorem eq_other_of_ne {v w : Variant} (h : (v == w) = false) : (if v = .v1 then .v2 else .v1) = w := by
  induction v <;> induction w
  · exact (Bool.false_ne_true h.symm).elim
  · rfl
  · rfl
  · exact (Bool.false_ne_true h.symm).elim

/-- Settles O8: a state is itself on a device of its own variant. -/
theorem otherVariantsCommandIsIllegal : Obligations.OtherVariantsCommandIsIllegal := fun s i h =>
  exec_onOtherDevice i s (eq_other_of_ne h)

end Sys2Proof.Machine

namespace Sys2Proof.Machine

/-- `V2DELAY` of a channel offset, with its rounding as an argument. -/
noncomputable def v2DelayWith (i : Inst) (v off : Rat) (r : Rat → Rat) : Rat :=
  clampReal (r (r (i.minds + r (r (v * i.depth) * r (i.maxds - i.minds))) + off)) i.minds i.maxds

/-- The delay of variant 2, from a sum that no operation rounds. -/
theorem v2Delay_exact {c : Config} (hx : c.rounding = .exact) {i : Inst} {v y off x : Rat}
    (hy : v * i.depth * (i.maxds - i.minds) = y) (ho : (if i.isRight then c.v2RightOffset else 0) = off)
    (h : i.minds + y + off = x) : v2Delay c i v = clampReal x i.minds i.maxds :=
  (congrArg (v2DelayWith i v (if i.isRight then c.v2RightOffset else 0)) (funext (roundReal_exact hx)) :).trans
    (congrArg (fun x => clampReal x i.minds i.maxds) ((congrArg₂ (fun a b => i.minds + a + b) hy ho).trans h))

/-- Settles O56: the clamp, and the corner cases computed inside it. -/
theorem v2DelayStaysInRange : Obligations.V2DelayStaysInRange := by
  intro c i v hx h ho
  have off {a b : Rat} (hb : 0 ≤ b) : a ≤ a + b := (Rat.add_zero a).symm.trans_le (Rat.add_le_add_left.2 hb)
  have nonneg : 0 ≤ if i.isRight then c.v2RightOffset else 0 := ite_nonneg ho Rat.le_refl
  have shallow (d : i.depth = 0) : v * i.depth * (i.maxds - i.minds) = 0 :=
    (congrArg (fun x => x * (i.maxds - i.minds)) ((congrArg (fun x => v * x) d).trans (Rat.mul_zero v))).trans (Rat.zero_mul _)
  have deep (d : i.depth = 1) (hv : v = 1) : v * i.depth * (i.maxds - i.minds) = i.maxds - i.minds  :=
    (congrArg (fun x => x * (i.maxds - i.minds)) ((congrArg₂ HMul.hMul hv d).trans (Rat.one_mul 1))).trans (Rat.one_mul _)
  exact ⟨clampReal_ge h, clampReal_le h,
    fun d r => (v2Delay_exact hx (shallow d) (if_neg (ne_true_of_eq_false r)) ((Rat.add_zero _).trans (Rat.add_zero _))).trans
      (clampReal_of_mem Rat.le_refl h),
    fun d r hm => (v2Delay_exact hx (shallow d) (if_pos r) (congrArg (fun x => x + c.v2RightOffset) (Rat.add_zero _))).trans
      (clampReal_of_mem (off ho) hm),
    fun d hv => (v2Delay_exact hx (deep d hv) rfl (congrArg (fun x => x + _) (add_sub_cancel ..))).trans ((limit_eq h).trans ((congrArg (max _)
      (min_eq_right (off nonneg))).trans (max_eq_right h)))⟩

end Sys2Proof.Machine

namespace Sys2Proof.Machine

theorem hasBlock_v2 (c : Slot) : hasBlock .v2 c = true := by
  induction c <;> rfl

theorem setBlk_frame (s : State) (c : Slot) (m : Memory) :
    s.setBlk c m = { s with blk0 := (s.setBlk c m).blk0, blk1 := (s.setBlk c m).blk1 } := by
  induction c <;> rfl

/-- Settles O10: the move is one word written in one window. -/
theorem hostPlacesOneSample : Obligations.HostPlacesOneSample := by
  intro s c n v rest hin hm hn hc
  have place : (hasBlock s.cfg.variant c && decide (n < s.cfg.blockN)) = true :=
    Bool.and_eq_true_iff.2 ⟨hc.elim (congrArg (hasBlock s.cfg.variant)) fun hv =>
      (congrArg (fun v => hasBlock v c) hv).trans (hasBlock_v2 c), decide_eq_true hn⟩
  have blk : ({ s with input := rest }.setBlkWord c n v).blk c = Memory.writeWord (s.blk c) n v :=
    State.setBlk_blk_same ..
  exact ⟨_, (step_of_input hin).trans (congrArg outcomeOf (if_pos place)), setBlk_frame .., 
    (congrArg (fun m => Memory.readWord m n) blk).trans ((Memory.readWord_writeWord hm n v n).trans (if_pos rfl)),
    fun a ha => (congrArg (fun m => Memory.readByte m a) blk).trans (Memory.readByte_writeWord_other hm v ha),
    fun d a hd => congrArg (fun m => Memory.readByte m a) (State.setBlk_blk_other _ c d _ hd)⟩

end Sys2Proof.Machine

namespace Sys2Proof.Machine

/-- An accumulator within 256 times the sample range leaves its quotient by 256. -/
theorem sampleOf_asr8 {acc : Int} (h0 : -32768 * 256 ≤ acc) (h1 : acc ≤ 32767 * 256) :
    (sampleOf (asr8 acc)).toInt = acc / 256 :=
  have q0 : -32768 ≤ asr8 acc := Int.le_ediv_of_mul_le (by decide) h0
  have q1 : asr8 acc ≤ 32767 := Int.ediv_le_of_le_mul (by decide) h1
  (congrArg (fun v => (BitVec.ofInt 16 v).toInt) (clampInt_of_mem q0 q1)).trans
    (BitVec.toInt_ofInt_eq_self (by decide) q0 (Int.lt_add_one_of_le q1))

/-- Settles O54: the weighted sum needs 24 bits, so its quotient by 256 is a sample. -/
theorem mixIsExact : Obligations.MixIsExact := by
  intro x w wet dry hs w0 w1 acc
  have total (k : Int) : k * dry.toNat + k * wet.toNat = k * 256 :=
    (Int.mul_add ..).symm.trans (congrArg (fun x => k * x) (congrArg Nat.cast ((Nat.add_comm ..).trans hs)))
  have equal {n : Nat} (hn : n = 0) : x.toInt * n = w * n :=
    hn.symm.subst (motive := fun n : Nat => x.toInt * n = w * n) ((Int.mul_zero _).trans (Int.mul_zero _).symm)
  have a0 : -32768 * 256 ≤ acc := (total _).symm.trans_le (Int.add_le_add
    (Int.mul_le_mul_of_nonneg_right (sample_toInt_mem x).1 (Int.natCast_nonneg _))
    (Int.mul_le_mul_of_nonneg_right w0 (Int.natCast_nonneg _)))
  have a1 : acc ≤ 32767 * 256 := (Int.add_le_add
    (Int.mul_le_mul_of_nonneg_right (sample_toInt_mem x).2 (Int.natCast_nonneg _))
    (Int.mul_le_mul_of_nonneg_right w1 (Int.natCast_nonneg _))).trans_eq (total _)
  have e : (mix8 x w wet dry).toInt = acc / 256 := sampleOf_asr8 a0 a1
  refine ⟨e.trans (Rat.floor_intCast_div_natCast acc 256).symm, a0, a1.trans (by decide), fun h => ?_, fun h => ?_⟩
  · have d : dry.toNat = 0 := Nat.add_left_cancel ((congrArg (BitVec.toNat · + dry.toNat) h).symm.trans hs :)
    exact e.trans (Int.ediv_eq_of_eq_mul_left (by decide) ((congrArg (fun y => y + w * wet.toNat) (equal d)).trans (total w)))
  · exact BitVec.eq_of_toInt_eq (e.trans (Int.ediv_eq_of_eq_mul_left (by decide)
      ((congrArg (fun y => x.toInt * dry.toNat + y) (equal (congrArg BitVec.toNat h)).symm).trans (total x.toInt))))

end Sys2Proof.Machine

namespace Sys2Proof

/-- A variant has one row per operation code, and every mask covers the code. -/
theorem rows_opc : (rows.map fun r => (r.variant, opcOf r.pattern)).Nodup ∧ ∀ r ∈ rows, opcOf r.mask = BitVec.allOnes 4 := by
  decide

theorem decode_isOk_iff {v : Variant} {w : Word64} :
    (∃ i, decode v w = .ok i) ↔ (rows.find? (Row.selects v w)).isSome = true := by
  delta decode
  generalize rows.find? (Row.selects v w) = o
  induction o with
  | none => exact ⟨fun h => (Bool.false_ne_true (congrArg Except.toBool h.choose_spec)).elim, fun h => (Bool.false_ne_true h).elim⟩
  | some r => exact ⟨fun _h => rfl, fun _h => ⟨_, rfl⟩⟩

/-- Settles O3: a row that matches has the word's operation code, and a variant has one row for it. -/
theorem atMostOneRowMatches : Obligations.AtMostOneRowMatches := fun _v w =>
  have opc {r : Row} (hr : r ∈ rows) (h : w &&& r.mask = r.pattern) : opcOf r.pattern = opcOf w :=
    (congrArg opcOf h).symm.trans (BitVec.extractLsb'_and.trans
      ((congrArg (fun x => opcOf w &&& x) (rows_opc.2 r hr)).trans BitVec.and_allOnes))
  ⟨fun _r hr _r' hr' hv h hv' h' => List.inj_on_of_nodup_map rows_opc.1 hr hr'
      (congrArg₂ Prod.mk (hv.trans hv'.symm) ((opc hr h).trans (opc hr' h').symm)),
    decode_isOk_iff.trans (List.find?_isSome.trans (exists_congr fun _r => and_congr_right fun _h =>
      Bool.and_eq_true_iff.trans (and_congr beq_iff_eq beq_iff_eq)))⟩

end Sys2Proof

namespace Sys2Proof.Machine

/-- `s` with the memory of `m`. -/
noncomputable def State.withMemoryOf (s m : State) : State := s.withMemory m.dly0 m.dly1 m.blk0 m.blk1

noncomputable def nextWithMemoryOf (m : State) (o : Host.Outcome State Fault Refusal) : Host.Outcome State Fault Refusal :=
  o.casesOn (fun t => .next (t.withMemoryOf m)) .fault .refused

/-- On a device of variant `v`, other memory in the state before is other memory in the state after, and no more. -/
def IgnoresMemory (i : Instr) (v : Variant) : Prop :=
  ∀ s m : State, exec i ((s.withMemoryOf m).onDevice v) = nextWithMemoryOf m (exec i (s.onDevice v))

theorem ignoresMemory {i : Instr} (h : accessesMemory i ≠ true) (v : Variant) : IgnoresMemory i v := by
  refine (Bool.eq_false_or_eq_true (i.variant == v)).elim (fun hv => (eq_of_beq hv).subst ?_)
    fun hv s m => (exec_onOtherDevice i (s.withMemoryOf m) (eq_other_of_ne hv)).trans
      (congrArg (nextWithMemoryOf m) (exec_onOtherDevice i s (eq_other_of_ne hv))).symm
  clear hv
  induction i with
  | init1 n p q => exact (h rfl).elim
  | init2 c n p r => exact (h rfl).elim
  | proc1 x => exact (h rfl).elim
  | proc2 c x => exact (h rfl).elim
  | setrate1 q => exact fun s m => Eq.refl (exec _ ((s.withMemoryOf m).onDevice .v1))
  | setdepth1 q => exact fun s m => Eq.refl (exec _ ((s.withMemoryOf m).onDevice .v1))
  | setmix q => exact fun s m => Eq.refl (exec _ ((s.withMemoryOf m).onDevice .v1))
  | setbyp1 q => exact fun s m => Eq.refl (exec _ ((s.withMemoryOf m).onDevice .v1))
  | getlen1 => exact fun s m => Eq.refl (exec _ ((s.withMemoryOf m).onDevice .v1))
  | setrate2 c q => clear h; induction c <;> exact fun s m => Eq.refl (exec _ ((s.withMemoryOf m).onDevice .v2))
  | setdepth2 c q => clear h; induction c <;> exact fun s m => Eq.refl (exec _ ((s.withMemoryOf m).onDevice .v2))
  | setmode c q => clear h; induction c <;> exact fun s m => Eq.refl (exec _ ((s.withMemoryOf m).onDevice .v2))
  | setbyp2 c q => clear h; induction c <;> exact fun s m => Eq.refl (exec _ ((s.withMemoryOf m).onDevice .v2))
  | getlen2 c => clear h; induction c <;> exact fun s m => Eq.refl (exec _ ((s.withMemoryOf m).onDevice .v2))
  | syncph q => exact fun s m => Eq.refl (exec _ ((s.withMemoryOf m).onDevice .v2))
  | getph => exact fun s m => Eq.refl (exec _ ((s.withMemoryOf m).onDevice .v2))

/-- Settles O14: with its own memory for the other, the next state is one whose memory is that of `s`. -/
theorem onlyInitAndProcAccessMemory : Obligations.OnlyInitAndProcAccessMemory := by
  intro i s t d0 d1 b0 b1 hi h
  have other (m : State) : exec i (s.withMemoryOf m) = .next (t.withMemoryOf m) :=
    (ignoresMemory (ne_true_of_eq_false hi) s.cfg.variant s m).trans (congrArg (nextWithMemoryOf m) h)
  have same : t.withMemoryOf s = t := Host.Outcome.next.inj ((other s).symm.trans h)
  have mem (c : Slot) (a : Nat) := 
    same.subst (motive := fun t => Memory.readByte (t.dly c) a = Memory.readByte (s.dly c) a ∧
      Memory.readByte (t.blk c) a = Memory.readByte (s.blk c) a) (by induction c <;> exact ⟨rfl, rfl⟩)
  exact ⟨other (s.withMemory d0 d1 b0 b1), fun c a => (mem c a).1, fun c a => (mem c a).2⟩

end Sys2Proof.Machine
